-- ==== Sys2Proof/Word.lean ====
section
/-! DEFINITION. The word types and the sizes of operands, addresses and registers (00_scope R5, R14). -/

namespace Sys2Proof

/-- A byte is 8 bits (R5). -/
abbrev Byte := BitVec 8

/-- A word is 16 bits (R5). -/
abbrev Word16 := BitVec 16

/-- A doubleword is 32 bits (R5). -/
abbrev Word32 := BitVec 32

/-- The value of an operand-size, address-size or stack address-size attribute: 16 or 32 (R14). -/
inductive SizeAttr where
  | s16
  | s32
deriving DecidableEq, Repr, Inhabited

/-- The bytes of an item of that attribute's size. -/
def SizeAttr.bytes : SizeAttr → Nat
  | .s16 => 2
  | .s32 => 4

/-- The bits of an item of that attribute's size. -/
abbrev SizeAttr.bits (a : SizeAttr) : Nat := 8 * a.bytes

/-- The three widths of a register or memory operand (R5): byte, word, doubleword. -/
inductive Width where
  | byte
  | word
  | dword
deriving DecidableEq, Repr

/-- The bytes of an operand of that width. -/
def Width.bytes : Width → Nat
  | .byte => 1
  | .word => 2
  | .dword => 4

/-- The bits of an operand of that width. -/
abbrev Width.bits (w : Width) : Nat := 8 * w.bytes

end Sys2Proof
end

