-- ==== Sys2Proof/Config.lean ====
section
/-! DEFINITION. What an implementation fixes and the spec leaves open, and the free values. Each is an
opaque constant: no proof can see its value. The predicate `Config.ioOtherFactors` (R30 (d)) speaks of
the whole state and is declared beside it, at the end of Machine/State.lean. -/

namespace Sys2Proof

/-- The two readings of "66" in "[TSS + 66]" (00_scope R30 (a), 90_conflicts C12): decimal 66 as
printed, or 66H, which is 102. -/
inductive IomapPtrOffset where
  | decimal66
  | hex66
deriving DecidableEq, Repr, Inhabited

/-- The two-part operands of 20_memory R75 and 30_encoding R143 whose layout is open (D23). -/
inductive PairKind where
  /-- m16:16 and m16:32: selector on the left, offset on the right. -/
  | farPointer
  /-- ptr16:16 and ptr16:32 in the instruction (cd, cp): selector on the left, offset on the right. -/
  | farImmediate
  /-- m16 & 32: limit on the left, base on the right. -/
  | limitBase
  /-- m16 & 16 and m32 & 32: the two bounds. -/
  | bounds
deriving DecidableEq, Repr

/-- Which part of a two-part operand is at the lower address. -/
inductive PartOrder where
  | leftFirst
  | rightFirst
deriving DecidableEq, Repr, Inhabited

/-- IOMAP_PTR_OFFSET: the offset of the bitmap pointer in the TSS (R30 (a), D15; log 13). -/
opaque Config.iomapPtrOffset : IomapPtrOffset

/-- IOMAP_PTR_WIDTH: the width of the read of `Ptr`, 16 or 32 (R30 (b), D15; log 13). -/
opaque Config.iomapPtrWidth : SizeAttr

/-- IOMAP_PTR_RELATIVE: whether `Ptr` is an offset from TssBase (R30 (c), D15; log 13). -/
opaque Config.iomapPtrRelative : Bool

/-- MULTIPART_LAYOUT: which part of a two-part operand lies lower (R75, D23; log 16). -/
opaque Config.multipartLayout : PairKind → PartOrder

/-- Whether a string operand uses ESI and EDI (true) or SI and DI when the address size is 32 (R83
does not say; log 17). -/
opaque Config.stringUsesExtended : Bool

/-- The value a flag "listed as undefined" holds after an instruction, one for each draw (00_scope R33,
D14; log 19). -/
opaque Config.freeFlag : Nat → Bool

end Sys2Proof
end

