-- ==== Sys2Proof/Syntax.lean ====
section
/-! DEFINITION. The syntax of registers, prefixes, instructions, addressing forms and operand notation
(10_state R40, R44; 30_encoding R107 to R160; 40_cmc R171). -/

namespace Sys2Proof

/-- The doubleword registers, in code order (R40). -/
inductive Reg32 where
  | eax | ecx | edx | ebx | esp | ebp | esi | edi
deriving DecidableEq, Repr

/-- The word registers, in code order (R40). -/
inductive Reg16 where
  | ax | cx | dx | bx | sp | bp | si | di
deriving DecidableEq, Repr

/-- The byte registers, in code order (R40). -/
inductive Reg8 where
  | al | cl | dl | bl | ah | ch | dh | bh
deriving DecidableEq, Repr

/-- The segment registers, in code order (R44). -/
inductive Sreg where
  | es | cs | ss | ds | fs | gs
deriving DecidableEq, Repr

/-- The eleven prefixes (R109 to R112). REP, REPE and REPZ are one byte, REPNE and REPNZ another. -/
inductive Prefix where
  | rep
  | repne
  | lock
  | segment (s : Sreg)
  | operandSize
  | addressSize
deriving DecidableEq, Repr

/-- The four prefix groups of Figure 17-1 (R107, R113). -/
inductive PrefixGroup where
  | instruction
  | addressSize
  | operandSize
  | segmentOverride
deriving DecidableEq, Repr

/-- One constructor for each row of spec/opcode_table.json. A prefix is "not an instruction" by itself:
its constructor is the instruction whose FIRST byte is that prefix, with the prefixes that follow it
(`more`) and the opcode byte that ends them (log 1). -/
inductive Instr where
  /-- CMC, the byte F5 (R171). -/
  | cmc
  /-- F3: REP, REPE or REPZ (R109). -/
  | repPrefix (more : List Prefix) (opcode : Byte)
  /-- F2: REPNE or REPNZ (R109). -/
  | repnePrefix (more : List Prefix) (opcode : Byte)
  /-- F0: LOCK (R109). -/
  | lockPrefix (more : List Prefix) (opcode : Byte)
  /-- 2E (R112). -/
  | csOverride (more : List Prefix) (opcode : Byte)
  /-- 36 (R112). -/
  | ssOverride (more : List Prefix) (opcode : Byte)
  /-- 3E (R112). -/
  | dsOverride (more : List Prefix) (opcode : Byte)
  /-- 26 (R112). -/
  | esOverride (more : List Prefix) (opcode : Byte)
  /-- 64 (R112). -/
  | fsOverride (more : List Prefix) (opcode : Byte)
  /-- 65 (R112). -/
  | gsOverride (more : List Prefix) (opcode : Byte)
  /-- 66 (R111). -/
  | operandSizeOverride (more : List Prefix) (opcode : Byte)
  /-- 67 (R110). -/
  | addressSizeOverride (more : List Prefix) (opcode : Byte)
deriving DecidableEq, Repr

/-- The ModR/M byte's fields (R117, Figure 17-2). -/
structure ModRM where
  mod : BitVec 2
  reg : BitVec 3
  rm : BitVec 3
deriving DecidableEq, Repr

/-- The SIB byte's fields (R119, Figure 17-2). -/
structure SIB where
  ss : BitVec 2
  index : BitVec 3
  base : BitVec 3
deriving DecidableEq, Repr

/-- The eight base-index parts of 16-bit addressing, in r/m order (R121). -/
inductive Base16 where
  | bxSi | bxDi | bpSi | bpDi | si | di | bp | bx
deriving DecidableEq, Repr

/-- The displacement of a 16-bit form: by mod none, disp8 or disp16 (R121, R122). -/
inductive Disp16 where
  | none
  | disp8 (d : BitVec 8)
  | disp16 (d : BitVec 16)
deriving DecidableEq, Repr

/-- The displacement of a 32-bit form: by mod none, disp8 or disp32 (R124, R125). -/
inductive Disp32 where
  | none
  | disp8 (d : BitVec 8)
  | disp32 (d : BitVec 32)
deriving DecidableEq, Repr

/-- A memory addressing form of Tables 17-2, 17-3 and 17-4 (R121, R124, R127, R128). The scale `ss` is
kept where the index is "none": the table has a row for each (R127). -/
inductive MemForm where
  | based16 (b : Base16) (d : Disp16)
  | direct16 (d : BitVec 16)
  | based32 (r : Reg32) (d : Disp32)
  | direct32 (d : BitVec 32)
  | sib (ss : BitVec 2) (index : Option Reg32) (base : Reg32) (d : Disp32)
  | sibDirect (ss : BitVec 2) (index : Option Reg32) (d : BitVec 32)
deriving DecidableEq, Repr

/-- What a ModR/M byte names in its mod and r/m fields: a register code, read at the operand's width
(R41, R120), or a memory form. -/
inductive RmForm where
  | reg (code : BitVec 3)
  | mem (m : MemForm)
deriving DecidableEq, Repr

/-- How an Opcode column uses the ModR/M byte (R141, R142). -/
inductive ModRmUse where
  | none
  | digit (d : BitVec 3)
  | slashR
deriving DecidableEq, Repr

/-- The field that follows the addressing bytes: an immediate (R144) or a code offset (R143). -/
inductive TrailField where
  | none
  | ib | iw | id
  | cb | cw | cd | cp
deriving DecidableEq, Repr

/-- One entry of an Opcode column (R140 to R145): the opcode bytes but the last, the last opcode byte,
whether a register code is added to it (+rb, +rw, +rd), the ModR/M use and the trailing field. -/
structure OpcodeForm where
  lead : List Byte
  opcode : Byte
  plusReg : Bool
  modrm : ModRmUse
  trail : TrailField
deriving DecidableEq, Repr

/-- An instruction's bytes after its prefixes, taken apart by an `OpcodeForm` (R115): the code added to
the opcode byte, the reg field and the r/m operand of a ModR/M byte, the trailing field's bytes. -/
structure ParsedForm where
  plusCode : Option (BitVec 3)
  regField : Option (BitVec 3)
  rm : Option RmForm
  trail : List Byte
deriving DecidableEq, Repr

/-- The three spellings of R15's example. -/
inductive CmpsName where
  | cmps | cmpsw | cmpsd
deriving DecidableEq, Repr

end Sys2Proof
end

