-- ==== Sys2Proof/Decode.lean ====
section
/-! DEFINITION. The decoder, total on any bytes, and after it the encoder: byte order inside the
instruction, register codes, prefixes, ModR/M, SIB and displacements, the notation of the Opcode column,
and the instructions of spec/opcode_table.json (30_encoding, 40_cmc R171). -/

namespace Sys2Proof

/-! ### Byte order (20_memory R70, 30_encoding R146) -/

/-- The `n` low-order bytes of a number, low-order byte first (R70). -/
def natToLE : Nat → Nat → List Byte
  | 0, _ => []
  | n + 1, v => BitVec.ofNat 8 v :: natToLE n (v / 256)

/-- The number whose bytes these are, low-order byte first (R70). -/
def leToNat : List Byte → Nat
  | [] => 0
  | b :: bs => b.toNat + 256 * leToNat bs

/-- The bytes of an `n`-byte value, low-order byte first (R70). -/
def toLE (n : Nat) (v : BitVec (8 * n)) : List Byte :=
  natToLE n v.toNat

/-- The `n`-byte value of bytes stored low-order byte first (R70). -/
def ofLE (n : Nat) (bs : List Byte) : BitVec (8 * n) :=
  BitVec.ofNat (8 * n) (leToNat bs)

/-- Takes the first `n` bytes, if there are that many. -/
def takeBytes (n : Nat) (bs : List Byte) : Option (List Byte × List Byte) :=
  if n ≤ bs.length then some (bs.take n, bs.drop n) else none

/-- Takes an `n`-byte field, low-order byte first (R146). -/
def takeLE (n : Nat) (bs : List Byte) : Option (BitVec (8 * n) × List Byte) :=
  (takeBytes n bs).map fun p => (ofLE n p.1, p.2)

/-! ### Register codes (10_state R40, R44) -/

/-- The doubleword register of a code (R40). -/
def Reg32.ofCode (c : BitVec 3) : Reg32 :=
  match c.toNat with
  | 0 => .eax
  | 1 => .ecx
  | 2 => .edx
  | 3 => .ebx
  | 4 => .esp
  | 5 => .ebp
  | 6 => .esi
  | _ => .edi

/-- The word register of a code (R40). -/
def Reg16.ofCode (c : BitVec 3) : Reg16 :=
  match c.toNat with
  | 0 => .ax
  | 1 => .cx
  | 2 => .dx
  | 3 => .bx
  | 4 => .sp
  | 5 => .bp
  | 6 => .si
  | _ => .di

/-- The byte register of a code (R40). -/
def Reg8.ofCode (c : BitVec 3) : Reg8 :=
  match c.toNat with
  | 0 => .al
  | 1 => .cl
  | 2 => .dl
  | 3 => .bl
  | 4 => .ah
  | 5 => .ch
  | 6 => .dh
  | _ => .bh

/-- The segment register of a code; 6 and 7 are not assigned (R44, R159). -/
def Sreg.ofCode (c : BitVec 3) : Option Sreg :=
  match c.toNat with
  | 0 => some .es
  | 1 => some .cs
  | 2 => some .ss
  | 3 => some .ds
  | 4 => some .fs
  | 5 => some .gs
  | _ => none

/-- The code of a doubleword register (R40, R145). -/
def Reg32.code : Reg32 → BitVec 3
  | .eax => 0
  | .ecx => 1
  | .edx => 2
  | .ebx => 3
  | .esp => 4
  | .ebp => 5
  | .esi => 6
  | .edi => 7

/-- The code of a word register (R40, R145). -/
def Reg16.code : Reg16 → BitVec 3
  | .ax => 0
  | .cx => 1
  | .dx => 2
  | .bx => 3
  | .sp => 4
  | .bp => 5
  | .si => 6
  | .di => 7

/-- The code of a byte register (R40, R145). -/
def Reg8.code : Reg8 → BitVec 3
  | .al => 0
  | .cl => 1
  | .dl => 2
  | .bl => 3
  | .ah => 4
  | .ch => 5
  | .dh => 6
  | .bh => 7

/-- The code of a segment register (R44, R159). -/
def Sreg.code : Sreg → BitVec 3
  | .es => 0
  | .cs => 1
  | .ss => 2
  | .ds => 3
  | .fs => 4
  | .gs => 5

/-! ### Prefixes (R109 to R113) -/

/-- The group of a prefix (R107, R113). -/
def Prefix.group : Prefix → PrefixGroup
  | .rep => .instruction
  | .repne => .instruction
  | .lock => .instruction
  | .segment _ => .segmentOverride
  | .operandSize => .operandSize
  | .addressSize => .addressSize

/-- The prefix of a byte; any other value ends the prefixes (R113). -/
def Prefix.ofByte (b : Byte) : Option Prefix :=
  match b.toNat with
  | 0x26 => some (.segment .es)
  | 0x2E => some (.segment .cs)
  | 0x36 => some (.segment .ss)
  | 0x3E => some (.segment .ds)
  | 0x64 => some (.segment .fs)
  | 0x65 => some (.segment .gs)
  | 0x66 => some .operandSize
  | 0x67 => some .addressSize
  | 0xF0 => some .lock
  | 0xF2 => some .repne
  | 0xF3 => some .rep
  | _ => none

/-- The mnemonics of a prefix (R109 to R112, R165). -/
def Prefix.mnemonics : Prefix → List String
  | .rep => ["REP", "REPE", "REPZ"]
  | .repne => ["REPNE", "REPNZ"]
  | .lock => ["LOCK"]
  | .segment .es => ["ES"]
  | .segment .cs => ["CS"]
  | .segment .ss => ["SS"]
  | .segment .ds => ["DS"]
  | .segment .fs => ["FS"]
  | .segment .gs => ["GS"]
  | .operandSize => ["Operand-size override"]
  | .addressSize => ["Address-size override"]

/-! ### The decoder of the opcode table -/

/-- Why bytes decode to no instruction. -/
inductive DecodeError where
  /-- The bytes end before the instruction does. -/
  | truncated
  /-- "opcode not shown" (R162, D1). -/
  | opcodeNotShown (opcode : Byte)
  /-- A second prefix of one group (R113, D3). -/
  | repeatedPrefixGroup (g : PrefixGroup)
deriving DecidableEq, Repr

/-- What prefixes and an opcode byte stand for. Without a prefix only F5 is assigned (R161); the first
prefix names the constructor. -/
def assemble : List Prefix → Byte → Except DecodeError Instr
  | [], op => if op = 0xF5 then .ok .cmc else .error (.opcodeNotShown op)
  | .rep :: more, op => .ok (.repPrefix more op)
  | .repne :: more, op => .ok (.repnePrefix more op)
  | .lock :: more, op => .ok (.lockPrefix more op)
  | .segment .cs :: more, op => .ok (.csOverride more op)
  | .segment .ss :: more, op => .ok (.ssOverride more op)
  | .segment .ds :: more, op => .ok (.dsOverride more op)
  | .segment .es :: more, op => .ok (.esOverride more op)
  | .segment .fs :: more, op => .ok (.fsOverride more op)
  | .segment .gs :: more, op => .ok (.gsOverride more op)
  | .operandSize :: more, op => .ok (.operandSizeOverride more op)
  | .addressSize :: more, op => .ok (.addressSizeOverride more op)

/-- Reads the prefix bytes, in any order, at most one of each group, and the opcode byte that ends them
(R113, D3). `seen` holds the groups already read. -/
def readPrefixes : List PrefixGroup → List Byte → Except DecodeError (List Prefix × Byte × List Byte)
  | _, [] => .error .truncated
  | seen, b :: bs =>
    match Prefix.ofByte b with
    | none => .ok ([], b, bs)
    | some p =>
      if seen.contains p.group then .error (.repeatedPrefixGroup p.group)
      else
        match readPrefixes (p.group :: seen) bs with
        | .error e => .error e
        | .ok (ps, op, rest) => .ok (p :: ps, op, rest)

/-- The instruction at the front of some bytes, and the bytes after it (R107, R113, R115, R161). -/
def decode (bs : List Byte) : Except DecodeError (Instr × List Byte) :=
  match readPrefixes [] bs with
  | .error e => .error e
  | .ok (ps, op, rest) =>
    match assemble ps op with
    | .error e => .error e
    | .ok i => .ok (i, rest)

/-- The longest instruction the decoder reads: one prefix of each of the four groups and an opcode byte
(R107, R113). -/
def maxInstrLen : Nat := 5

/-- The bytes of an instruction whose `nbits` bits the opcode table gives, zeros above (the table's bit 0
is the least significant bit of the first byte). -/
def tableBytes (nbits w : Nat) : List Byte :=
  natToLE maxInstrLen (w % 2 ^ nbits)

/-- The instruction the decoder reads from a table word. -/
def decodeTableWord (nbits w : Nat) : Option Instr :=
  match decode (tableBytes nbits w) with
  | .ok (i, _) => some i
  | .error _ => none

/-! ### ModR/M, SIB and displacements (R117 to R132) -/

/-- The fields of a ModR/M byte: mod 7:6, reg 5:3, r/m 2:0 (R117). -/
def ModRM.ofByte (b : Byte) : ModRM :=
  ⟨b.extractLsb' 6 2, b.extractLsb' 3 3, b.extractLsb' 0 3⟩

/-- The ModR/M byte: mod ++ reg ++ rm (R117). -/
def ModRM.toByte (m : ModRM) : Byte :=
  m.mod ++ m.reg ++ m.rm

/-- The fields of a SIB byte: ss 7:6, index 5:3, base 2:0 (R119). -/
def SIB.ofByte (b : Byte) : SIB :=
  ⟨b.extractLsb' 6 2, b.extractLsb' 3 3, b.extractLsb' 0 3⟩

/-- The SIB byte: ss ++ index ++ base (R119). -/
def SIB.toByte (s : SIB) : Byte :=
  s.ss ++ s.index ++ s.base

/-- The base-index part of 16-bit addressing by r/m (R121). -/
def Base16.ofCode (rm : BitVec 3) : Base16 :=
  match rm.toNat with
  | 0 => .bxSi
  | 1 => .bxDi
  | 2 => .bpSi
  | 3 => .bpDi
  | 4 => .si
  | 5 => .di
  | 6 => .bp
  | _ => .bx

/-- The r/m code of a base-index part (R121). -/
def Base16.code : Base16 → BitVec 3
  | .bxSi => 0
  | .bxDi => 1
  | .bpSi => 2
  | .bpDi => 3
  | .si => 4
  | .di => 5
  | .bp => 6
  | .bx => 7

/-- The index register of a SIB byte; code 100 is "none" (R127). -/
def indexOfCode (c : BitVec 3) : Option Reg32 :=
  if c = 4 then none else some (Reg32.ofCode c)

/-- The SIB code of an index (R127). -/
def indexCode : Option Reg32 → BitVec 3
  | none => 4
  | some r => r.code

/-- The displacement of a 16-bit form by mod: 00 none, 01 disp8, 10 disp16 (R121, R122). -/
def readDisp16 (mod : BitVec 2) (bs : List Byte) : Option (Disp16 × List Byte) :=
  match mod.toNat with
  | 0 => some (.none, bs)
  | 1 => (takeLE 1 bs).map fun p => (.disp8 p.1, p.2)
  | _ => (takeLE 2 bs).map fun p => (.disp16 p.1, p.2)

/-- The displacement of a 32-bit form by mod: 00 none, 01 disp8, 10 disp32 (R124, R125). -/
def readDisp32 (mod : BitVec 2) (bs : List Byte) : Option (Disp32 × List Byte) :=
  match mod.toNat with
  | 0 => some (.none, bs)
  | 1 => (takeLE 1 bs).map fun p => (.disp8 p.1, p.2)
  | _ => (takeLE 4 bs).map fun p => (.disp32 p.1, p.2)

/-- A 16-bit memory form, mod not 11: r/m = 110 with mod = 00 is disp16 alone (R121). -/
def readMem16 (mod : BitVec 2) (rm : BitVec 3) (bs : List Byte) : Option (MemForm × List Byte) :=
  if mod = 0 ∧ rm = 6 then (takeLE 2 bs).map fun p => (.direct16 p.1, p.2)
  else (readDisp16 mod bs).map fun p => (.based16 (Base16.ofCode rm) p.1, p.2)

/-- The SIB byte and what follows it: base = 101 with mod = 00 is disp32 with no base (R126 to R128). -/
def readSib (mod : BitVec 2) : List Byte → Option (MemForm × List Byte)
  | [] => none
  | b :: bs =>
    let s := SIB.ofByte b
    if mod = 0 ∧ s.base = 5 then
      (takeLE 4 bs).map fun p => (.sibDirect s.ss (indexOfCode s.index) p.1, p.2)
    else
      (readDisp32 mod bs).map fun p =>
        (.sib s.ss (indexOfCode s.index) (Reg32.ofCode s.base) p.1, p.2)

/-- A 32-bit memory form, mod not 11: r/m = 100 has a SIB byte, r/m = 101 with mod = 00 is disp32 alone
(R124, R126). -/
def readMem32 (mod : BitVec 2) (rm : BitVec 3) (bs : List Byte) : Option (MemForm × List Byte) :=
  if rm = 4 then readSib mod bs
  else if mod = 0 ∧ rm = 5 then (takeLE 4 bs).map fun p => (.direct32 p.1, p.2)
  else (readDisp32 mod bs).map fun p => (.based32 (Reg32.ofCode rm) p.1, p.2)

/-- A memory form at an address size (R106: the attribute selects Table 17-2 or Table 17-3). -/
def readMem (a : SizeAttr) (mod : BitVec 2) (rm : BitVec 3) (bs : List Byte) :
    Option (MemForm × List Byte) :=
  match a with
  | .s16 => readMem16 mod rm bs
  | .s32 => readMem32 mod rm bs

/-- The ModR/M byte with its SIB byte and displacement: the reg field, the r/m operand and the bytes
after (R115 (3), R132). mod = 11 names a register at both address sizes (R120). -/
def readRm (a : SizeAttr) : List Byte → Option (BitVec 3 × RmForm × List Byte)
  | [] => none
  | b :: bs =>
    let m := ModRM.ofByte b
    if m.mod = 3 then some (m.reg, .reg m.rm, bs)
    else (readMem a m.mod m.rm bs).map fun p => (m.reg, .mem p.1, p.2)

/-! ### The Opcode column's notation and the length of an instruction (R115, R140 to R145) -/

/-- The bytes of a trailing field (R143, R144). -/
def TrailField.bytes : TrailField → Nat
  | .none => 0
  | .ib => 1
  | .iw => 2
  | .id => 4
  | .cb => 1
  | .cw => 2
  | .cd => 4
  | .cp => 6

/-- An immediate of the operand size: iw or id (R106, R151, R152). -/
def TrailField.immOf : SizeAttr → TrailField
  | .s16 => .iw
  | .s32 => .id

/-- A relative offset of the operand size: cw (rel16) or cd (rel32) (R106, R148). -/
def TrailField.relOf : SizeAttr → TrailField
  | .s16 => .cw
  | .s32 => .cd

/-- A FAR pointer of the operand size: cd (ptr16:16) or cp (ptr16:32) (R143, R149). -/
def TrailField.farOf : SizeAttr → TrailField
  | .s16 => .cd
  | .s32 => .cp

/-- The value of the trailing field as an `n`-byte field (ib, iw, id, cb, cw, cd): the byte at the lowest
address is bits 7:0 (R146). -/
def ParsedForm.trailValue (p : ParsedForm) (n : Nat) : BitVec (8 * n) :=
  ofLE n p.trail

/-- The last opcode byte, with the register code if the form adds one (+rb, +rw, +rd; R145). -/
def opcodeWithReg (f : OpcodeForm) (code : BitVec 3) : Byte :=
  if f.plusReg then f.opcode + code.setWidth 8 else f.opcode

/-- The code that, added to the form's opcode byte, gives this byte (R145). -/
def plusCodeOf (f : OpcodeForm) (b : Byte) : Option (BitVec 3) :=
  if (b - f.opcode).toNat < 8 then some ((b - f.opcode).setWidth 3) else none

/-- Reads the opcode bytes of a form: all of them must be there (R140). -/
def readOpcode (f : OpcodeForm) (bs : List Byte) : Option (Option (BitVec 3) × List Byte) :=
  match takeBytes f.lead.length bs with
  | none => none
  | some (lead, rest) =>
    if lead = f.lead then
      match rest with
      | [] => none
      | b :: rest' =>
        if f.plusReg then (plusCodeOf f b).map fun c => (some c, rest')
        else if b = f.opcode then some (none, rest') else none
    else none

/-- Reads the ModR/M part of a form: /digit asks for its digit in the reg field (R141), /r for any
register there (R142). -/
def readModRmUse (a : SizeAttr) (u : ModRmUse) (bs : List Byte) :
    Option (Option (BitVec 3) × Option RmForm × List Byte) :=
  match u with
  | .none => some (none, none, bs)
  | .digit d =>
    match readRm a bs with
    | none => none
    | some (reg, rm, rest) => if reg = d then some (none, some rm, rest) else none
  | .slashR => (readRm a bs).map fun p => (some p.1, some p.2.1, p.2.2)

/-- Takes the bytes after the prefixes apart by a form: opcode, ModR/M, SIB and displacement, then the
trailing field, which is always last (R107, R115). -/
def readForm (a : SizeAttr) (f : OpcodeForm) (bs : List Byte) : Option (ParsedForm × List Byte) :=
  match readOpcode f bs with
  | none => none
  | some (plus, bs1) =>
    match readModRmUse a f.modrm bs1 with
    | none => none
    | some (reg, rm, bs2) =>
      (takeBytes f.trail.bytes bs2).map fun p => (⟨plus, reg, rm, p.1⟩, p.2)

/-- The length of an instruction with `nPrefixes` prefixes (R115): what the form consumes, and the
prefixes. -/
def formLength (a : SizeAttr) (f : OpcodeForm) (nPrefixes : Nat) (bs : List Byte) : Option Nat :=
  (readForm a f bs).map fun p => nPrefixes + (bs.length - p.2.length)

/-- The Opcode column of CMC: F5 (R171). -/
def cmcForm : OpcodeForm :=
  ⟨[], 0xF5, false, .none, .none⟩

/-! ### The encoder -/

/-- The byte of a prefix, as the table gives it (R109 to R112). -/
def Prefix.byte : Prefix → Byte
  | .rep => 0xF3
  | .repne => 0xF2
  | .lock => 0xF0
  | .segment .cs => 0x2E
  | .segment .ss => 0x36
  | .segment .ds => 0x3E
  | .segment .es => 0x26
  | .segment .fs => 0x64
  | .segment .gs => 0x65
  | .operandSize => 0x66
  | .addressSize => 0x67

/-- The prefixes an instruction carries, its first byte's included. -/
def Instr.prefixes : Instr → List Prefix
  | .cmc => []
  | .repPrefix more _ => .rep :: more
  | .repnePrefix more _ => .repne :: more
  | .lockPrefix more _ => .lock :: more
  | .csOverride more _ => .segment .cs :: more
  | .ssOverride more _ => .segment .ss :: more
  | .dsOverride more _ => .segment .ds :: more
  | .esOverride more _ => .segment .es :: more
  | .fsOverride more _ => .segment .fs :: more
  | .gsOverride more _ => .segment .gs :: more
  | .operandSizeOverride more _ => .operandSize :: more
  | .addressSizeOverride more _ => .addressSize :: more

/-- The opcode byte of an instruction: CMC is F5 (R171). -/
def Instr.opcodeByte : Instr → Byte
  | .cmc => 0xF5
  | .repPrefix _ op => op
  | .repnePrefix _ op => op
  | .lockPrefix _ op => op
  | .csOverride _ op => op
  | .ssOverride _ op => op
  | .dsOverride _ op => op
  | .esOverride _ op => op
  | .fsOverride _ op => op
  | .gsOverride _ op => op
  | .operandSizeOverride _ op => op
  | .addressSizeOverride _ op => op

/-- The bytes of an instruction, lowest address first (R73, R107). -/
def encode (i : Instr) : List Byte :=
  i.prefixes.map Prefix.byte ++ [i.opcodeByte]

/-- The length of an instruction in bytes. -/
def Instr.length (i : Instr) : Nat :=
  i.prefixes.length + 1

/-- The statement an ASM386 program writes for an unprefixed instruction (R164, R174). -/
def Instr.statement : Instr → Option String
  | .cmc => some "CMC"
  | .repPrefix _ _ => none
  | .repnePrefix _ _ => none
  | .lockPrefix _ _ => none
  | .csOverride _ _ => none
  | .ssOverride _ _ => none
  | .dsOverride _ _ => none
  | .esOverride _ _ => none
  | .fsOverride _ _ => none
  | .gsOverride _ _ => none
  | .operandSizeOverride _ _ => none
  | .addressSizeOverride _ _ => none

/-- The mod field of a 16-bit displacement (R121). -/
def Disp16.mod : Disp16 → BitVec 2
  | .none => 0
  | .disp8 _ => 1
  | .disp16 _ => 2

/-- The bytes of a 16-bit form's displacement (R122, R146). -/
def Disp16.encode : Disp16 → List Byte
  | .none => []
  | .disp8 d => toLE 1 d
  | .disp16 d => toLE 2 d

/-- The mod field of a 32-bit displacement (R124). -/
def Disp32.mod : Disp32 → BitVec 2
  | .none => 0
  | .disp8 _ => 1
  | .disp32 _ => 2

/-- The bytes of a 32-bit form's displacement (R125, R146). -/
def Disp32.encode : Disp32 → List Byte
  | .none => []
  | .disp8 d => toLE 1 d
  | .disp32 d => toLE 4 d

/-- The address size a memory form belongs to (R119: a SIB byte never occurs with 16-bit addressing). -/
def MemForm.addressSize : MemForm → SizeAttr
  | .based16 _ _ => .s16
  | .direct16 _ => .s16
  | .based32 _ _ => .s32
  | .direct32 _ => .s32
  | .sib _ _ _ _ => .s32
  | .sibDirect _ _ _ => .s32

/-- The bytes of a memory form with a reg field: ModR/M, SIB, displacement (R117 to R132). -/
def MemForm.encode (reg : BitVec 3) : MemForm → List Byte
  | .based16 b d => ModRM.toByte ⟨d.mod, reg, b.code⟩ :: d.encode
  | .direct16 d => ModRM.toByte ⟨0, reg, 6⟩ :: toLE 2 d
  | .based32 r d => ModRM.toByte ⟨d.mod, reg, r.code⟩ :: d.encode
  | .direct32 d => ModRM.toByte ⟨0, reg, 5⟩ :: toLE 4 d
  | .sib ss index base d =>
    ModRM.toByte ⟨d.mod, reg, 4⟩ :: SIB.toByte ⟨ss, indexCode index, base.code⟩ :: d.encode
  | .sibDirect ss index d =>
    ModRM.toByte ⟨0, reg, 4⟩ :: SIB.toByte ⟨ss, indexCode index, 5⟩ :: toLE 4 d

/-- The bytes of an r/m operand with a reg field (R120, R131). -/
def RmForm.encode (reg : BitVec 3) : RmForm → List Byte
  | .reg code => [ModRM.toByte ⟨3, reg, code⟩]
  | .mem m => m.encode reg

end Sys2Proof
end

