-- ==== Sys2Proof/Machine/State.lean ====
section
/-! DEFINITION. The machine's state as plain data, the reasons a step can stop, and the state after
reset (10_state, 00_scope R6, 60_exceptions R181). -/

namespace Sys2Proof.Machine

/-- The three modes of execution (10_state R53). -/
inductive Mode where
  | realMode
  | protectedMode
  | virtual8086
deriving DecidableEq, Repr

/-- The two types of TSS (R52). -/
inductive TssType where
  | tss386
  | tss286
deriving DecidableEq, Repr

/-- The exceptions of Table 17-6 (60_exceptions R181). -/
inductive ExceptionName where
  /-- Invalid opcode. -/
  | ud
  /-- Coprocessor not available. -/
  | nm
  /-- Double fault. -/
  | df
  /-- Invalid TSS. -/
  | ts
  /-- Segment or gate not present. -/
  | np
  /-- Stack fault. -/
  | ss
  /-- General protection fault. -/
  | gp
  /-- Page fault. -/
  | pf
  /-- Math (coprocessor) fault. -/
  | mf
deriving DecidableEq, Repr

/-- The eight general registers; their word and byte names are parts of them (R40, R42). -/
structure Gprs where
  eax : Word32
  ecx : Word32
  edx : Word32
  ebx : Word32
  esp : Word32
  ebp : Word32
  esi : Word32
  edi : Word32
deriving DecidableEq, Repr

/-- The six segment registers' 16-bit selectors (R44). -/
structure Selectors where
  es : Word16
  cs : Word16
  ss : Word16
  ds : Word16
  fs : Word16
  gs : Word16
deriving DecidableEq, Repr

/-- SegBase of each segment register (R50). -/
structure SegBases where
  es : Word32
  cs : Word32
  ss : Word32
  ds : Word32
  fs : Word32
  gs : Word32
deriving DecidableEq, Repr

/-- A descriptor table register: a 16-bit limit and a base of up to 32 bits (R51). -/
structure TableReg where
  limit : Word16
  base : Word32
deriving DecidableEq, Repr

/-- A partial map from 32-bit linear addresses to bytes (20_memory R84), as a list with strictly rising
addresses. An address that is not listed is not held: it has no value. -/
abbrev Memory := List Host.Cell

/-- The state of the machine. -/
structure State where
  /-- The general registers (R40). -/
  gprs : Gprs
  /-- The segment registers (R44). -/
  selectors : Selectors
  /-- The segment bases (R50). -/
  bases : SegBases
  /-- The program counter, an offset in the segment of CS (R45). -/
  pc : Word32
  /-- The carry flag (R46). -/
  cf : Bool
  /-- The mode of execution (R53). -/
  mode : Mode
  /-- The D-bit of the segment in CS (R48). -/
  dBit : Bool
  /-- The B-bit of the segment in SS (R49). -/
  bBit : Bool
  /-- The type of the current TSS (R52). -/
  tssType : TssType
  /-- The base of the current TSS (R52). -/
  tssBase : Word32
  /-- The Global Descriptor Table Register (R51; log 11). -/
  gdtr : TableReg
  /-- The Interrupt Descriptor Table Register (R51; log 11). -/
  idtr : TableReg
  /-- Memory by linear address (R84). -/
  mem : Memory
  /-- The offset of the program's first byte (70_reset_and_hazards R203; log 12). -/
  progStart : Word32
  /-- The number of the program's bytes (R203; log 12). -/
  progLen : Nat
  /-- ADMIT_PREFIXED_CMC (00_scope R6, D2; log 2). -/
  admitPrefixedCmc : Bool
  /-- The model's own field: how many free values have been drawn (R33, D14; log 19). -/
  draws : Nat
deriving DecidableEq, Repr

/-- Why the machine stops with a fault. -/
inductive Fault where
  /-- An exception of Table 17-6 with its interrupt number and error code, raised by `raise`: the run
  ends and no handler is entered (60_exceptions R187, D9). Safe: nothing is said of what follows. -/
  | exception (name : ExceptionName) (number : Nat) (code : Option Nat)
  /-- A fetch, read or write of a linear address the memory does not hold: there is no step (20_memory
  R84, D13). Safe: nothing is said of such an access. -/
  | notHeld (linear : Word32)
deriving DecidableEq, Repr

/-- Why the model gives no meaning. -/
inductive Refusal where
  /-- An arm of `exec` without a meaning. Safe. No arm answers it in this model. -/
  | notModelled (mnemonic : String)
  /-- The first byte that is no prefix is not F5 (30_encoding R162, D1): raised by the decoder and by a
  prefixed instruction. Safe. -/
  | opcodeNotShown (opcode : Byte)
  /-- CMC with prefixes while ADMIT_PREFIXED_CMC is false (40_cmc R173, D2). Safe. -/
  | prefixedCmc
  /-- An instruction that carries F0, F2 or F3 (30_encoding R109, D20). Safe. -/
  | instructionPrefix (p : Prefix)
  /-- A second prefix of one group (30_encoding R113, D3): raised by the decoder. Safe. -/
  | repeatedPrefixGroup (g : PrefixGroup)
  /-- `pc + L` passes the top of the offset range, or a fetch would (10_state R45, D4). Safe. -/
  | pcBeyondRange
  /-- An access that straddles the top of its offset range (20_memory R71, D26). Safe. -/
  | offsetStraddle
  /-- A store into the program's own bytes (20_memory R89, D8). Safe. -/
  | storeIntoProgram (linear : Word32)
  /-- A segment register code of 6 or 7 (10_state R44, D19). Safe. -/
  | sregUnassigned (code : BitVec 3)
  /-- Bit with an offset outside the range of its base (00_scope R26, R27, D21). Safe. -/
  | bitOffsetOutOfRange
  /-- Bit with a base register that is not a doubleword register (a word register: 00_scope R26, D21; a byte
  register: log 41). Safe. -/
  | bitBaseRegister
  /-- A use of Switch-Tasks (00_scope R31, U18). Safe. -/
  | switchTasks
  /-- A relative target that depends on the unstated width of its truncation (30_encoding R147, U22).
  Safe. -/
  | branchTargetWidth
deriving DecidableEq, Repr

/-- What ends an operation without a result. -/
inductive Stop where
  | fault (f : Fault)
  | refusal (r : Refusal)
deriving DecidableEq, Repr

/-- An operation that can stop. -/
abbrev Access (α : Type) := Except Stop α

/-- One step's outcome on this machine. -/
abbrev Result := Host.Outcome State Fault Refusal

/-- The machine right after reset. The spec gives no value (R58, R200); the register values are the
family's where the family has one (PRESUMED, log 5), the D-bit is 0 because the mode is real (R58, R101),
ADMIT_PREFIXED_CMC has the default the spec gives (D2), memory holds nothing (log 7), and the rest is zero
(DESIGN CHOICE, log 6). -/
def State.reset : State where
  gprs := ⟨0, 0, 0x00000308, 0, 0, 0, 0, 0⟩
  selectors := ⟨0, 0xF000, 0, 0, 0, 0⟩
  bases := ⟨0, 0xFFFF0000, 0, 0, 0, 0⟩
  pc := 0x0000FFF0
  cf := false
  mode := .realMode
  dBit := false
  bBit := false
  tssType := .tss386
  tssBase := 0
  gdtr := ⟨0, 0⟩
  idtr := ⟨0x03FF, 0⟩
  mem := []
  progStart := 0
  progLen := 0
  admitPrefixedCmc := false
  draws := 0

end Sys2Proof.Machine

namespace Sys2Proof

/-- IoOtherFactors: the "other factors" of I-O-Permission, an uninterpreted predicate of the state, the
I/O address and the width (00_scope R30 (d), D15; log 14). -/
opaque Config.ioOtherFactors : Machine.State → Word32 → Width → Bool

end Sys2Proof
end

