-- ==== Sys2Proof/Machine/Registers.lean ====
section
/-! DEFINITION. Reading and writing registers: general registers at three widths with their aliasing
(10_state R40 to R42), segment registers and their bases (R44, R50), and the setters of State. -/

namespace Sys2Proof.Machine

/-- The contents of a doubleword register. -/
def Gprs.get (g : Gprs) : Reg32 → Word32
  | .eax => g.eax
  | .ecx => g.ecx
  | .edx => g.edx
  | .ebx => g.ebx
  | .esp => g.esp
  | .ebp => g.ebp
  | .esi => g.esi
  | .edi => g.edi

/-- Writes a doubleword register. -/
def Gprs.set (g : Gprs) (r : Reg32) (v : Word32) : Gprs :=
  match r with
  | .eax => { g with eax := v }
  | .ecx => { g with ecx := v }
  | .edx => { g with edx := v }
  | .ebx => { g with ebx := v }
  | .esp => { g with esp := v }
  | .ebp => { g with ebp := v }
  | .esi => { g with esi := v }
  | .edi => { g with edi := v }

/-- The doubleword register a word register is the low half of (R42). -/
def wideOf16 : Reg16 → Reg32
  | .ax => .eax
  | .cx => .ecx
  | .dx => .edx
  | .bx => .ebx
  | .sp => .esp
  | .bp => .ebp
  | .si => .esi
  | .di => .edi

/-- The doubleword register a byte register is part of (R42). -/
def wideOf8 : Reg8 → Reg32
  | .al => .eax
  | .cl => .ecx
  | .dl => .edx
  | .bl => .ebx
  | .ah => .eax
  | .ch => .ecx
  | .dh => .edx
  | .bh => .ebx

/-- Whether a byte register is bits 15:8 (AH, CH, DH, BH) and not bits 7:0 (R42). -/
def isHigh8 : Reg8 → Bool
  | .al => false
  | .cl => false
  | .dl => false
  | .bl => false
  | .ah => true
  | .ch => true
  | .dh => true
  | .bh => true

/-- r16: bits 15:0 of the doubleword register (R42). -/
def Gprs.get16 (g : Gprs) (r : Reg16) : Word16 :=
  (g.get (wideOf16 r)).extractLsb' 0 16

/-- A write to a word register changes bits 15:0 only (R42). -/
def Gprs.set16 (g : Gprs) (r : Reg16) (v : Word16) : Gprs :=
  g.set (wideOf16 r) ((g.get (wideOf16 r)).extractLsb' 16 16 ++ v)

/-- r8: bits 7:0 or 15:8 of the doubleword register (R42). -/
def Gprs.get8 (g : Gprs) (r : Reg8) : Byte :=
  if isHigh8 r then (g.get (wideOf8 r)).extractLsb' 8 8 else (g.get (wideOf8 r)).extractLsb' 0 8

/-- A write to a byte register changes its own bits only (R42). -/
def Gprs.set8 (g : Gprs) (r : Reg8) (v : Byte) : Gprs :=
  let old := g.get (wideOf8 r)
  if isHigh8 r then g.set (wideOf8 r) (old.extractLsb' 16 16 ++ v ++ old.extractLsb' 0 8)
  else g.set (wideOf8 r) (old.extractLsb' 8 24 ++ v)

/-- The register with a code at a width (R40, R41). -/
def Gprs.getCode (g : Gprs) (w : Width) (code : BitVec 3) : BitVec w.bits :=
  match w with
  | .byte => g.get8 (Reg8.ofCode code)
  | .word => g.get16 (Reg16.ofCode code)
  | .dword => g.get (Reg32.ofCode code)

/-- Writes the register with a code at a width (R40, R41). -/
def Gprs.setCode (g : Gprs) (w : Width) (code : BitVec 3) (v : BitVec w.bits) : Gprs :=
  match w with
  | .byte => g.set8 (Reg8.ofCode code) v
  | .word => g.set16 (Reg16.ofCode code) v
  | .dword => g.set (Reg32.ofCode code) v

/-- The selector in a segment register (R44). -/
def Selectors.get (x : Selectors) : Sreg → Word16
  | .es => x.es
  | .cs => x.cs
  | .ss => x.ss
  | .ds => x.ds
  | .fs => x.fs
  | .gs => x.gs

/-- SegBase(s) (R50). -/
def SegBases.get (x : SegBases) : Sreg → Word32
  | .es => x.es
  | .cs => x.cs
  | .ss => x.ss
  | .ds => x.ds
  | .fs => x.fs
  | .gs => x.gs

/-- The segment register operand of a 3-bit field; 6 and 7 are refused (R44, R159, D19). -/
def sregOperand (code : BitVec 3) : Access Sreg :=
  match Sreg.ofCode code with
  | some s => .ok s
  | none => .error (.refusal (.sregUnassigned code))

/-- Replaces the general registers. -/
def State.setGprs (s : State) (g : Gprs) : State :=
  { s with gprs := g }

/-- Sets the program counter: `pc <- target` (00_scope R9). -/
def State.setPc (s : State) (v : Word32) : State :=
  { s with pc := v }

/-- Sets the carry flag. -/
def State.setCf (s : State) (b : Bool) : State :=
  { s with cf := b }

/-- Sets the Global Descriptor Table Register (R51). -/
def State.setGdtr (s : State) (r : TableReg) : State :=
  { s with gdtr := r }

/-- Sets the Interrupt Descriptor Table Register (R51). -/
def State.setIdtr (s : State) (r : TableReg) : State :=
  { s with idtr := r }

/-- Counts one free value as drawn (log 19). -/
def State.drawn (s : State) : State :=
  { s with draws := s.draws + 1 }

/-- The VM flag: the current task is a virtual-8086 task (R47, R52; DEDUCED, log 10). -/
def State.vm (s : State) : Bool :=
  s.mode == .virtual8086

end Sys2Proof.Machine
end

