-- ==== Sys2Proof/Machine/Flags.lean ====
section
/-! DEFINITION. The Flags Affected convention (00_scope R32, R33) on the one flag the spec names, CF
(10_state R46). -/

namespace Sys2Proof.Machine

/-- What an instruction page says of a flag (R32, R33). -/
inductive FlagEffect where
  /-- "All flags not listed are unchanged by the instruction." -/
  | unchanged
  /-- "If a flag is always cleared", the value 0 is given. -/
  | cleared
  /-- "or always set by the instruction", the value 1 is given. -/
  | set
  /-- The value the Operation section assigns. -/
  | assigned (b : Bool)
  /-- "may be changed by the instruction in an indeterminate manner": a draw (D14). -/
  | undefined
deriving DecidableEq, Repr

/-- Gives CF its value after an instruction. An undefined flag takes a free value, a new one each time
(R33; log 19). -/
def applyCf (e : FlagEffect) (s : State) : State :=
  match e with
  | .unchanged => s
  | .cleared => s.setCf false
  | .set => s.setCf true
  | .assigned b => s.setCf b
  | .undefined => (s.setCf (Config.freeFlag s.draws)).drawn

/-- CF <- NOT CF (40_cmc R171). -/
def complementCf (s : State) : State :=
  applyCf (.assigned (!s.cf)) s

end Sys2Proof.Machine
end

