-- ==== Sys2Proof/Machine/Memory.lean ====
section
/-! DEFINITION. Memory by linear address: one byte, then little-endian values over consecutive addresses
(20_memory R70, R78, R84, R89). -/

namespace Sys2Proof.Machine

/-- The byte at an address, if the memory holds one (R84). -/
def Memory.read : Memory → Nat → Option Byte
  | [], _ => none
  | (a, b) :: m, x => if a = x then some b else Memory.read m x

/-- Puts a byte at an address, held or not, keeping the addresses rising. -/
def Memory.put : Memory → Nat → Byte → Memory
  | [], x, v => [(x, v)]
  | (a, b) :: m, x, v =>
    if x < a then (x, v) :: (a, b) :: m
    else if a = x then (x, v) :: m
    else (a, b) :: Memory.put m x v

/-- Stores a byte at an address the memory holds; there is no store to another address (R84). -/
def Memory.store (m : Memory) (x : Nat) (v : Byte) : Option Memory :=
  match m.read x with
  | none => none
  | some _ => some (m.put x v)

/-- Every address is at least `lo` and below 2^32, and the addresses rise strictly. -/
def Memory.wfFrom : Nat → Memory → Bool
  | _, [] => true
  | lo, (a, _) :: m => decide (lo ≤ a) && decide (a < 2 ^ 32) && Memory.wfFrom (a + 1) m

/-- The canonical form: strictly rising addresses below 2^32. -/
def Memory.wf (m : Memory) : Bool :=
  Memory.wfFrom 0 m

/-- Places bytes at consecutive linear addresses, held or not: how a program is loaded from outside
(70_reset_and_hazards R202, R203; log 4). -/
def Memory.load (m : Memory) (a : Word32) : List Byte → Memory
  | [] => m
  | b :: bs => Memory.load (m.put a.toNat b) (a + 1) bs

/-- The `n` bytes at consecutive linear addresses (R71, R78; the addresses wrap, log 8). The stop is that of
the first byte not held, in ascending order (DESIGN CHOICE, safe; log 3). -/
def linReadBytes (m : Memory) (a : Word32) : Nat → Access (List Byte)
  | 0 => .ok []
  | n + 1 =>
    match m.read a.toNat with
    | none => .error (.fault (.notHeld a))
    | some b =>
      match linReadBytes m (a + 1) n with
      | .error e => .error e
      | .ok bs => .ok (b :: bs)

/-- LinRead(a, n): `n` bytes at a linear address, little-endian (00_scope R9, R70). -/
def linRead (m : Memory) (a : Word32) (n : Nat) : Access (BitVec (8 * n)) :=
  match linReadBytes m a n with
  | .error e => .error e
  | .ok bs => .ok (ofLE n bs)

/-- Stores bytes at consecutive linear addresses. A store into the program's bytes is refused (R89, D8),
one to an address not held has no step (R84). R78 gives the bytes no order: the stop is that of the first
byte in ascending order that has one, and of one byte the refusal comes first (DESIGN CHOICE, safe; log 3). -/
def linWriteBytes (inProgram : Word32 → Bool) (m : Memory) (a : Word32) : List Byte → Access Memory
  | [] => .ok m
  | b :: bs =>
    if inProgram a then .error (.refusal (.storeIntoProgram a))
    else
      match m.store a.toNat b with
      | none => .error (.fault (.notHeld a))
      | some m' => linWriteBytes inProgram m' (a + 1) bs

/-- The linear address of the program's first byte (R203). -/
def State.progLinear (s : State) : Word32 :=
  s.bases.cs + s.progStart

/-- Whether a linear address is one of the program's bytes (R203, R89). -/
def State.inProgram (s : State) (a : Word32) : Bool :=
  decide ((a - s.progLinear).toNat < s.progLen)

/-- Replaces the memory. -/
def State.setMem (s : State) (m : Memory) : State :=
  { s with mem := m }

/-- LinWrite(a, n, v): `n` bytes at a linear address, little-endian (00_scope R9, R70). -/
def linWrite (s : State) (a : Word32) (n : Nat) (v : BitVec (8 * n)) : Access State :=
  match linWriteBytes s.inProgram s.mem a (toLE n v) with
  | .error e => .error e
  | .ok m => .ok (s.setMem m)

end Sys2Proof.Machine
end

