-- ==== Sys2Proof/Machine/Ops.lean ====
section
/-! DEFINITION. The named operations: raising an exception, size attributes, memory through a segment,
the program counter and the fetch, Truncate, ZeroExtend, SignExtend, Push, Pop, Bit and I-O-Permission
(00_scope R16 to R31, 20_memory R71, R81, R82, 30_encoding R100 to R105, 60_exceptions R180 to R187). -/

namespace Sys2Proof.Machine

/-- What a stop is as the outcome of a step. -/
def Stop.outcome : Stop → Result
  | .fault f => .fault f
  | .refusal r => .refused r

/-! ### Exceptions -/

/-- The interrupt number of an exception (Table 17-6, 60_exceptions R181). -/
def ExceptionName.number : ExceptionName → Nat
  | .ud => 6
  | .nm => 7
  | .df => 8
  | .ts => 10
  | .np => 11
  | .ss => 12
  | .gp => 13
  | .pf => 14
  | .mf => 16

/-- `raise #XX(code)`, the one operation that takes an exception: the run ends in a fault that records
the mnemonic, the interrupt number and the error code. No handler is entered and no state is saved, so
there is no return from one (R180, R187, R188, D9; log 21). -/
def raise (x : ExceptionName) (code : Option Nat) : Result :=
  .fault (.exception x x.number code)

/-- Switch-Tasks has no definition in the spec; a use of it is refused (00_scope R31, U18). -/
def switchTasks (_ : State) : Result :=
  .refused .switchTasks

/-! ### Size attributes (30_encoding R100 to R105) -/

/-- The D-bit as the defaults see it: 0 in real and virtual-8086 mode (R101; log 9). -/
def State.codeD (s : State) : Bool :=
  s.mode == .protectedMode && s.dBit

/-- The attribute a bit selects: 0 is 16 bits, 1 is 32 bits (R48, R49). -/
def sizeOfBit (b : Bool) : SizeAttr :=
  if b then .s32 else .s16

/-- The default of both attributes, which is also the width of the code segment's offset range (R45,
R101). -/
def State.codeSize (s : State) : SizeAttr :=
  sizeOfBit s.codeD

/-- The stack address-size attribute, by the B-bit alone (R49, R105). -/
def State.stackAddrSize (s : State) : SizeAttr :=
  sizeOfBit s.bBit

/-- The effective operand-size attribute, by D and prefix 66H (Table 17-1, R103). -/
def operandSize (d : Bool) (ps : List Prefix) : SizeAttr :=
  sizeOfBit (d != ps.contains .operandSize)

/-- The effective address-size attribute, by D and prefix 67H (Table 17-1, R103). -/
def addressSize (d : Bool) (ps : List Prefix) : SizeAttr :=
  sizeOfBit (d != ps.contains .addressSize)

/-- The segment override among some prefixes (R112). -/
def segOverride : List Prefix → Option Sreg
  | [] => none
  | .segment s :: _ => some s
  | .rep :: ps => segOverride ps
  | .repne :: ps => segOverride ps
  | .lock :: ps => segOverride ps
  | .operandSize :: ps => segOverride ps
  | .addressSize :: ps => segOverride ps

/-- The attributes an instruction runs with. -/
structure Attrs where
  operandSize : SizeAttr
  addressSize : SizeAttr
  segOverride : Option Sreg
deriving DecidableEq, Repr

/-- The attributes of an instruction with these prefixes in this state (R101 to R103, R112). -/
def attrsOf (s : State) (ps : List Prefix) : Attrs :=
  ⟨Machine.operandSize s.codeD ps, Machine.addressSize s.codeD ps, Machine.segOverride ps⟩

/-- An instruction form can fix its own operand size: CMPSW is 16, CMPSD is 32 (00_scope R15). -/
def cmpsOperandSize (c : CmpsName) (attr : SizeAttr) : SizeAttr :=
  match c with
  | .cmps => attr
  | .cmpsw => .s16
  | .cmpsd => .s32

/-! ### Truncation and extension (00_scope R16, R18, R19) -/

/-- Truncate to 16 bits: value[15:0] (R16). -/
def truncateTo16 {w : Nat} (v : BitVec w) : Word16 :=
  v.setWidth 16

/-- ZeroExtend to the operand size (R18). -/
def zeroExtendTo (sz : SizeAttr) {w : Nat} (v : BitVec w) : BitVec sz.bits :=
  v.setWidth sz.bits

/-- SignExtend to the operand size (R19). -/
def signExtendTo (sz : SizeAttr) {w : Nat} (v : BitVec w) : BitVec sz.bits :=
  v.signExtend sz.bits

/-! ### Memory through a segment register (20_memory R71) -/

/-- linear = (SegBase(seg) + off) mod 2^32 (R71). -/
def State.linear (s : State) (seg : Sreg) (off : Word32) : Word32 :=
  s.bases.get seg + off

/-- Whether `n` bytes at an offset stay inside the offset range of their address width (R71, D26). -/
def offsetFits (aw : SizeAttr) (off : Word32) (n : Nat) : Bool :=
  decide (off.toNat + n ≤ 2 ^ aw.bits)

/-- MemRead(seg, off, n) with the address width the offset was formed with (00_scope R9, R71). The offset
range is looked at before the bytes (log 3). -/
def memRead (s : State) (seg : Sreg) (aw : SizeAttr) (off : Word32) (n : Nat) :
    Access (BitVec (8 * n)) :=
  if offsetFits aw off n then linRead s.mem (s.linear seg off) n
  else .error (.refusal .offsetStraddle)

/-- MemWrite(seg, off, n, v) with the address width the offset was formed with (00_scope R9, R71). The
offset range is looked at before the bytes (log 3). -/
def memWrite (s : State) (seg : Sreg) (aw : SizeAttr) (off : Word32) (n : Nat) (v : BitVec (8 * n)) :
    Access State :=
  if offsetFits aw off n then linWrite s (s.linear seg off) n v
  else .error (.refusal .offsetStraddle)

/-! ### The program counter and the fetch (10_state R45) -/

/-- After an instruction of length `len` that does not transfer control, pc <- pc + len; past the top
of the code segment's offset range the step is refused (R45, D4). -/
def advance (len : Nat) (s : State) : Result :=
  if s.pc.toNat + len < 2 ^ s.codeSize.bits then .next (s.setPc (s.pc + BitVec.ofNat 32 len))
  else .refused .pcBeyondRange

/-- The instruction byte at an offset of the code segment (R45, R73). An offset past the range belongs
to an instruction whose pc + L passes it too (log 24); the range is looked at before the byte (log 3). -/
def fetchByte (s : State) (off : Nat) : Access Byte :=
  if off < 2 ^ s.codeSize.bits then
    match s.mem.read (s.linear .cs (BitVec.ofNat 32 off)).toNat with
    | some b => .ok b
    | none => .error (.fault (.notHeld (s.linear .cs (BitVec.ofNat 32 off))))
  else .error (.refusal .pcBeyondRange)

/-- The bytes from an offset on, `n` at most: as many as can be fetched, and what stops the fetch if
fewer. -/
def fetchWindow (s : State) (off : Nat) : Nat → List Byte × Option Stop
  | 0 => ([], none)
  | n + 1 =>
    match fetchByte s off with
    | .error e => ([], some e)
    | .ok b =>
      match fetchWindow s (off + 1) n with
      | (bs, e) => (b :: bs, e)

/-- What a decoding error is as a refusal. A truncated instruction is answered by what stopped the fetch,
also where a prefix already read would be refused: R84 and D20 (or D2) are given no order (DESIGN CHOICE,
safe; log 3). -/
def decodeStop (e : DecodeError) (fetchStop : Option Stop) : Result :=
  match e with
  | .opcodeNotShown op => .refused (.opcodeNotShown op)
  | .repeatedPrefixGroup g => .refused (.repeatedPrefixGroup g)
  | .truncated =>
    match fetchStop with
    | some stop => stop.outcome
    | none => .refused .pcBeyondRange

/-! ### The stack (00_scope R21 to R23, 20_memory R82) -/

/-- eSP as an offset: SP zero-extended, or ESP, by the stack address size (R14, R82). -/
def State.stackPtr (s : State) : Word32 :=
  match s.stackAddrSize with
  | .s16 => (s.gprs.get16 .sp).setWidth 32
  | .s32 => s.gprs.get .esp

/-- Adds to eSP: SP modulo 2^16 with ESP[31:16] kept, or ESP modulo 2^32 (R22, D25). -/
def State.moveStackPtr (s : State) (delta : Word32) : State :=
  match s.stackAddrSize with
  | .s16 => s.setGprs (s.gprs.set16 .sp (s.gprs.get16 .sp + delta.setWidth 16))
  | .s32 => s.setGprs (s.gprs.set .esp (s.gprs.get .esp + delta))

/-- Push(value): decrement eSP by the operand's bytes, then store at the new eSP in SS (R21). If the
store stops, nothing has changed (R22 (c), D16). -/
def push (sz : SizeAttr) (v : BitVec sz.bits) (s : State) : Access State :=
  let s' := s.moveStackPtr (-(BitVec.ofNat 32 sz.bytes))
  memWrite s' .ss s.stackAddrSize s'.stackPtr sz.bytes v

/-- Pop(): read at eSP in SS, then increment eSP by the operand's bytes (R23). -/
def pop (sz : SizeAttr) (s : State) : Access (BitVec sz.bits × State) :=
  match memRead s .ss s.stackAddrSize s.stackPtr sz.bytes with
  | .error e => .error e
  | .ok v => .ok (v, s.moveStackPtr (BitVec.ofNat 32 sz.bytes))

/-! ### Bit (00_scope R25 to R27) -/

/-- The base of a bit string: a register of some width, or a memory address. -/
inductive BitBase where
  | register (w : Width) (code : BitVec 3)
  | memory (a : Word32)
deriving DecidableEq, Repr

/-- The address of a bit. -/
inductive BitPlace where
  | inRegister (r : Reg32) (bit : Nat)
  | inMemory (a : Word32) (bit : Nat)
deriving DecidableEq, Repr

/-- Bit[BitBase, BitOffset]: in a doubleword register the offset is 0 to 31 and a word register is refused
(R26, D21); that a byte register is refused too is the model's own choice (DESIGN CHOICE, safe; log 41). In
memory the offset is any signed 32-bit number, DIV rounds towards negative infinity and MOD is never
negative (R27). -/
def bitPlace (base : BitBase) (offset : Int) : Access BitPlace :=
  match base with
  | .register .dword code =>
    if 0 ≤ offset ∧ offset ≤ 31 then .ok (.inRegister (Reg32.ofCode code) offset.toNat)
    else .error (.refusal .bitOffsetOutOfRange)
  | .register .word _ => .error (.refusal .bitBaseRegister)
  | .register .byte _ => .error (.refusal .bitBaseRegister)
  | .memory a =>
    if -(2 ^ 31) ≤ offset ∧ offset < 2 ^ 31 then
      .ok (.inMemory (a + BitVec.ofInt 32 (offset / 8)) (offset % 8).toNat)
    else .error (.refusal .bitOffsetOutOfRange)

/-- The bit at a bit address; a memory bit string lies at linear addresses (R25; log 35). -/
def readBit (s : State) : BitPlace → Access Bool
  | .inRegister r bit => .ok ((s.gprs.get r).getLsbD bit)
  | .inMemory a bit =>
    match linRead s.mem a 1 with
    | .error e => .error e
    | .ok b => .ok (b.getLsbD bit)

/-! ### I-O-Permission (00_scope R28 to R30) -/

/-- nBitMask: one bit for each byte of the I/O access (R28). -/
def ioBitMask : Width → Word16
  | .byte => 1
  | .word => 3
  | .dword => 15

/-- The number IOMAP_PTR_OFFSET stands for (R30 (a)). -/
def iomapOffset : IomapPtrOffset → Word32
  | .decimal66 => 66
  | .hex66 => 102

/-- Ptr <- [TSS + 66], read at the given width, and made absolute if it is relative to the TSS (R28, R30
(a) to (c)). -/
def ioMapPtr (m : Memory) (tssBase : Word32) (off : IomapPtrOffset) (width : SizeAttr)
    (relative : Bool) : Access Word32 :=
  match linRead m (tssBase + iomapOffset off) width.bytes with
  | .error e => .error e
  | .ok v => .ok (v.setWidth 32 + (if relative then tssBase else 0))

/-- The bitmap test: CheckString, read as two bytes (R29), has no bit of the mask set (R28). -/
def ioBitmapClear (m : Memory) (ptr ioAddress : Word32) (w : Width) : Access Bool :=
  let mask := ioBitMask w <<< (ioAddress &&& 7).toNat
  match linRead m ((ioAddress >>> 3) + ptr) 2 with
  | .error e => .error e
  | .ok check => .ok (check &&& mask == 0)

/-- I-O-Permission with its open parameters as arguments (R28, R30, D15). -/
def ioPermissionWith (off : IomapPtrOffset) (width : SizeAttr) (relative otherFactors : Bool)
    (s : State) (ioAddress : Word32) (w : Width) : Access Bool :=
  match s.tssType with
  | .tss286 => .ok false
  | .tss386 =>
    match ioMapPtr s.mem s.tssBase off width relative with
    | .error e => .error e
    | .ok ptr =>
      match ioBitmapClear s.mem ptr ioAddress w with
      | .error e => .error e
      | .ok b => .ok (b && otherFactors)

/-- I-O-Permission(I-O-Address, width) (R28). The open points are the constants of Config; the other
factors can withhold the permission the bitmap gives and not grant one (log 13, 14). -/
def ioPermission (s : State) (ioAddress : Word32) (w : Width) : Access Bool :=
  ioPermissionWith Config.iomapPtrOffset Config.iomapPtrWidth Config.iomapPtrRelative
    (Config.ioOtherFactors s ioAddress w) s ioAddress w

end Sys2Proof.Machine
end

