-- ==== Sys2Proof/Machine/Cmc.lean ====
section
/-! DEFINITION. The meaning of CMC (40_cmc R171, R172) and the shared operation of its prefixed forms
(R173). -/

namespace Sys2Proof.Machine

/-- CF <- NOT CF; pc <- pc + length (R171). -/
def complementCarry (len : Nat) (s : State) : Result :=
  advance len (complementCf s)

/-- CMC: complement the carry flag; one byte, the same in every mode and at every size (R171, R172). It
raises no exception (PRESUMED, GK5; log 27). -/
def execCmc (s : State) : Result :=
  complementCarry 1 s

/-- F0, F2 and F3 (R109). -/
def isInstructionPrefix (p : Prefix) : Bool :=
  p.group == .instruction

/-- An instruction with prefixes. One that carries F0, F2 or F3 is refused under every setting (R109,
D20); an opcode other than F5 is not shown (R162, D1); a CMC with 66H, 67H or a segment override is refused
unless ADMIT_PREFIXED_CMC, and then runs as CMC with the prefixes counted in its length (R173, D2). The
order of the three refusals is the model's (log 3). -/
def runPrefixed (ps : List Prefix) (opcode : Byte) (s : State) : Result :=
  match ps.find? isInstructionPrefix with
  | some p => .refused (.instructionPrefix p)
  | none =>
    if opcode = 0xF5 then
      if s.admitPrefixedCmc then complementCarry (ps.length + 1) s else .refused .prefixedCmc
    else .refused (.opcodeNotShown opcode)

end Sys2Proof.Machine
end

