-- ==== Sys2Proof/Machine/Prefixed.lean ====
section
/-! DEFINITION. The meanings of the instructions whose first byte is a prefix (30_encoding R109 to R113,
40_cmc R173). -/

namespace Sys2Proof.Machine

/-- F3: REP, REPE, REPZ. The spec gives it no semantics; refused (R109, D20). -/
def execRepPrefix (more : List Prefix) (opcode : Byte) (s : State) : Result :=
  runPrefixed (.rep :: more) opcode s

/-- F2: REPNE, REPNZ. The spec gives it no semantics; refused (R109, D20). -/
def execRepnePrefix (more : List Prefix) (opcode : Byte) (s : State) : Result :=
  runPrefixed (.repne :: more) opcode s

/-- F0: LOCK. The spec gives it no semantics; refused (R109, R76, D20). -/
def execLockPrefix (more : List Prefix) (opcode : Byte) (s : State) : Result :=
  runPrefixed (.lock :: more) opcode s

/-- 2E: CS override (R112, R173). -/
def execCsOverride (more : List Prefix) (opcode : Byte) (s : State) : Result :=
  runPrefixed (.segment .cs :: more) opcode s

/-- 36: SS override (R112, R173). -/
def execSsOverride (more : List Prefix) (opcode : Byte) (s : State) : Result :=
  runPrefixed (.segment .ss :: more) opcode s

/-- 3E: DS override (R112, R173). -/
def execDsOverride (more : List Prefix) (opcode : Byte) (s : State) : Result :=
  runPrefixed (.segment .ds :: more) opcode s

/-- 26: ES override (R112, R173). -/
def execEsOverride (more : List Prefix) (opcode : Byte) (s : State) : Result :=
  runPrefixed (.segment .es :: more) opcode s

/-- 64: FS override (R112, R173). -/
def execFsOverride (more : List Prefix) (opcode : Byte) (s : State) : Result :=
  runPrefixed (.segment .fs :: more) opcode s

/-- 65: GS override (R112, R173). -/
def execGsOverride (more : List Prefix) (opcode : Byte) (s : State) : Result :=
  runPrefixed (.segment .gs :: more) opcode s

/-- 66: operand-size override (R111, R173). -/
def execOperandSizeOverride (more : List Prefix) (opcode : Byte) (s : State) : Result :=
  runPrefixed (.operandSize :: more) opcode s

/-- 67: address-size override (R110, R173). -/
def execAddressSizeOverride (more : List Prefix) (opcode : Byte) (s : State) : Result :=
  runPrefixed (.addressSize :: more) opcode s

end Sys2Proof.Machine
end

