-- ==== Sys2Proof/Machine/Dispatch.lean ====
section
/-! DEFINITION. One arm for each constructor of Instr. -/

namespace Sys2Proof.Machine

-- The meaning of each instruction; 40_cmc R171 to R173, 30_encoding R109 to R113.
def exec (i : Instr) (s : State) : Host.Outcome State Fault Refusal :=
  match i with
  | .cmc => Sys2Proof.Machine.execCmc s
  | .repPrefix more opcode => Sys2Proof.Machine.execRepPrefix more opcode s
  | .repnePrefix more opcode => Sys2Proof.Machine.execRepnePrefix more opcode s
  | .lockPrefix more opcode => Sys2Proof.Machine.execLockPrefix more opcode s
  | .csOverride more opcode => Sys2Proof.Machine.execCsOverride more opcode s
  | .ssOverride more opcode => Sys2Proof.Machine.execSsOverride more opcode s
  | .dsOverride more opcode => Sys2Proof.Machine.execDsOverride more opcode s
  | .esOverride more opcode => Sys2Proof.Machine.execEsOverride more opcode s
  | .fsOverride more opcode => Sys2Proof.Machine.execFsOverride more opcode s
  | .gsOverride more opcode => Sys2Proof.Machine.execGsOverride more opcode s
  | .operandSizeOverride more opcode => Sys2Proof.Machine.execOperandSizeOverride more opcode s
  | .addressSizeOverride more opcode => Sys2Proof.Machine.execAddressSizeOverride more opcode s

end Sys2Proof.Machine
end

