-- ==== Sys2Proof/Machine/Step.lean ====
section
/-! DEFINITION. One step: fetch, decode, execute (10_state R45, 20_memory R73, 70_reset_and_hazards R204),
and where the host places an instruction. -/

namespace Sys2Proof.Machine

/-- The bytes step decodes: the longest instruction's worth from pc on, or fewer where the fetch stops. -/
def State.fetched (s : State) : List Byte × Option Stop :=
  fetchWindow s s.pc.toNat maxInstrLen

/-- One step: the instruction whose bytes stand at pc in the segment of CS, executed whole (R45, R73,
R204). -/
def step (s : State) : Host.Outcome State Fault Refusal :=
  match decode s.fetched.1 with
  | .ok (i, _) => exec i s
  | .error e => decodeStop e s.fetched.2

/-- The state with an instruction's table bits placed where step fetches: memory from SegBase(CS) + pc
on. It stands for the loading of a program from outside (70_reset_and_hazards R202; log 4). -/
def State.withFetchWord (s : State) (nbits w : Nat) : State :=
  s.setMem (s.mem.load (s.linear .cs s.pc) (tableBytes nbits w))

end Sys2Proof.Machine
end

