-- ==== Sys2Proof/Machine/Operands.lean ====
section
/-! DEFINITION. Every operand form: effective addresses, register and memory operands, immediates,
relative targets, far pointers, pairs, moffs and string operands (20_memory R75, R79 to R83; 30_encoding
R131, R147 to R160). -/

namespace Sys2Proof.Machine

/-! ### The effective-address computation (30_encoding R131) -/

/-- An effective address: its default segment, its offset and the address size it was formed with. -/
structure EffAddr where
  seg : Sreg
  off : Word32
  aw : SizeAttr
deriving DecidableEq, Repr

/-- The sum of the base-index registers of a 16-bit form (R121). -/
def base16Value (g : Gprs) : Base16 → Word16
  | .bxSi => g.get16 .bx + g.get16 .si
  | .bxDi => g.get16 .bx + g.get16 .di
  | .bpSi => g.get16 .bp + g.get16 .si
  | .bpDi => g.get16 .bp + g.get16 .di
  | .si => g.get16 .si
  | .di => g.get16 .di
  | .bp => g.get16 .bp
  | .bx => g.get16 .bx

/-- SS for a form containing BP, DS for the others (20_memory R79). -/
def base16Seg : Base16 → Sreg
  | .bxSi => .ds
  | .bxDi => .ds
  | .bpSi => .ss
  | .bpDi => .ss
  | .si => .ds
  | .di => .ds
  | .bp => .ss
  | .bx => .ds

/-- disp8 is sign-extended to 16 bits (R122). -/
def disp16Value : Disp16 → Word16
  | .none => 0
  | .disp8 d => d.signExtend 16
  | .disp16 d => d

/-- DefaultSeg32: SS for ESP and EBP, else DS (20_memory R80, D22; PRESUMED, log 29). -/
def defaultSeg32 : Reg32 → Sreg
  | .eax => .ds
  | .ecx => .ds
  | .edx => .ds
  | .ebx => .ds
  | .esp => .ss
  | .ebp => .ss
  | .esi => .ds
  | .edi => .ds

/-- disp8 is sign-extended to 32 bits (R125). -/
def disp32Value : Disp32 → Word32
  | .none => 0
  | .disp8 d => d.signExtend 32
  | .disp32 d => d

/-- The scaled index: the index register times 2^ss, and nothing when there is none (R127). -/
def scaledIndex (g : Gprs) (ss : BitVec 2) : Option Reg32 → Word32
  | none => 0
  | some r => g.get r <<< ss.toNat

/-- The effective address of a memory form: sums modulo the address size (R131, D24). -/
def effAddr (g : Gprs) : MemForm → EffAddr
  | .based16 b d => ⟨base16Seg b, (base16Value g b + disp16Value d).setWidth 32, .s16⟩
  | .direct16 d => ⟨.ds, d.setWidth 32, .s16⟩
  | .based32 r d => ⟨defaultSeg32 r, g.get r + disp32Value d, .s32⟩
  | .direct32 d => ⟨.ds, d, .s32⟩
  | .sib ss index base d =>
    ⟨defaultSeg32 base, g.get base + scaledIndex g ss index + disp32Value d, .s32⟩
  | .sibDirect ss index d => ⟨.ds, scaledIndex g ss index + d, .s32⟩

/-- A segment override replaces the default segment (20_memory R81). -/
def EffAddr.override (e : EffAddr) (o : Option Sreg) : EffAddr :=
  match o with
  | none => e
  | some s => { e with seg := s }

/-! ### Where an operand lies -/

/-- A register by its code, or a place in memory. -/
inductive Place where
  | reg (code : BitVec 3)
  | mem (e : EffAddr)
deriving DecidableEq, Repr

/-- The place of an r/m operand: a register when mod = 11, else memory through its segment (R120, R153,
R154). Addr(operand) is the `off` of the memory case (00_scope R17). -/
def rmPlace (s : State) (o : Option Sreg) : RmForm → Place
  | .reg code => .reg code
  | .mem m => .mem ((effAddr s.gprs m).override o)

/-- moffs8, moffs16, moffs32: an offset of the address size, DS or the override; its bytes in the
instruction are 2 or 4 (30_encoding R158, D22; log 18). -/
def moffsPlace (a : SizeAttr) (o : Option Sreg) (off : BitVec a.bits) : Place :=
  .mem (EffAddr.override ⟨.ds, off.setWidth 32, a⟩ o)

/-- Reads the offset field of a moffs operand (R158, R146). -/
def readMoffs (a : SizeAttr) (bs : List Byte) : Option (BitVec a.bits × List Byte) :=
  takeLE a.bytes bs

/-- An index register of a string operand as an offset: SI or DI at address size 16; at 32, ESI or EDI
if `extended`, which R83 leaves open (log 17). -/
def stringOffset (g : Gprs) (a : SizeAttr) (extended : Bool) (r : Reg16) : Word32 :=
  match a, extended with
  | .s32, true => g.get (wideOf16 r)
  | .s32, false => (g.get16 r).setWidth 32
  | .s16, _ => (g.get16 r).setWidth 32

/-- The string source, DS:SI; an override replaces DS (20_memory R81, R83). Its offset range is that of
the address size, also where the register is SI at address size 32 (DEDUCED from R71, unsafe; log 42). -/
def stringSource (s : State) (attrs : Attrs) (extended : Bool) : Place :=
  .mem (EffAddr.override
    ⟨.ds, stringOffset s.gprs attrs.addressSize extended .si, attrs.addressSize⟩ attrs.segOverride)

/-- The string destination, always ES:DI (20_memory R81, R83), with the offset range of the address size
(log 42). -/
def stringDest (s : State) (attrs : Attrs) (extended : Bool) : Place :=
  .mem ⟨.es, stringOffset s.gprs attrs.addressSize extended .di, attrs.addressSize⟩

/-- The string source with the machine's choice of index register. -/
def stringSourcePlace (s : State) (attrs : Attrs) : Place :=
  stringSource s attrs Config.stringUsesExtended

/-- The string destination with the machine's choice of index register. -/
def stringDestPlace (s : State) (attrs : Attrs) : Place :=
  stringDest s attrs Config.stringUsesExtended

/-- The width of a word or doubleword operand, by the operand size (R106). -/
def widthOf : SizeAttr → Width
  | .s16 => .word
  | .s32 => .dword

/-- Reads an operand of a width: r8, r16, r32, r/m8, r/m16, r/m32, m8, m16, m32, moffs (R153 to R160). -/
def readPlace (w : Width) (s : State) : Place → Access (BitVec w.bits)
  | .reg code => .ok (s.gprs.getCode w code)
  | .mem e => memRead s e.seg e.aw e.off w.bytes

/-- Writes an operand of a width. -/
def writePlace (w : Width) (s : State) (v : BitVec w.bits) : Place → Access State
  | .reg code => .ok (s.setGprs (s.gprs.setCode w code v))
  | .mem e => memWrite s e.seg e.aw e.off w.bytes v

/-! ### Immediates and relative targets (30_encoding R147 to R152) -/

/-- imm8 combined with a word or doubleword operand: sign-extended to the operand size (R150). -/
def imm8To (sz : SizeAttr) (b : Byte) : BitVec sz.bits :=
  signExtendTo sz b

/-- An imm8 operand of a form with a trailing ib, combined with a word or doubleword (R150). -/
def imm8Operand (sz : SizeAttr) (p : ParsedForm) : BitVec sz.bits :=
  imm8To sz (p.trailValue 1)

/-- imm16 or imm32 by the operand size: the word of a trailing iw, the doubleword of a trailing id (R106,
R151, R152). -/
def immOperand (sz : SizeAttr) (p : ParsedForm) : BitVec sz.bits :=
  p.trailValue sz.bytes

/-- The number an imm16 or imm32 operand is, -32768 to +32767 or -2147483648 to +2147483647 (R151, R152);
an opcode may read the field as unsigned instead (R144). -/
def immNumber (sz : SizeAttr) (p : ParsedForm) : Int :=
  (immOperand sz p).toInt

/-- The exact sum pc + L + sext(rel): "the end of the instruction" is the byte after its last (R147,
R148). -/
def relSum {w : Nat} (s : State) (len : Nat) (rel : BitVec w) : Int :=
  s.pc.toNat + len + rel.toInt

/-- The target of rel8, rel16 or rel32. The width the sum is truncated to is not in the source (N21), so
a sum that a truncation could change is refused (U22; log 20). -/
def relTarget {w : Nat} (s : State) (len : Nat) (rel : BitVec w) : Access Word32 :=
  if 0 ≤ relSum s len rel ∧ relSum s len rel < 2 ^ 16 then .ok (BitVec.ofInt 32 (relSum s len rel))
  else .error (.refusal .branchTargetWidth)

/-- The target of a rel8 operand in a trailing cb (R143, R147). -/
def rel8Operand (s : State) (len : Nat) (p : ParsedForm) : Access Word32 :=
  relTarget s len (p.trailValue 1)

/-- The target of rel16 or rel32 by the operand size, in a trailing cw or cd (R106, R143, R148). -/
def relOperand (sz : SizeAttr) (s : State) (len : Nat) (p : ParsedForm) : Access Word32 :=
  relTarget s len (p.trailValue sz.bytes)

/-! ### Two-part operands (20_memory R75, D23) -/

/-- Cuts the bytes of a two-part operand into its left and right parts (R75; the order is open). -/
def splitPair (order : PartOrder) (nl nr : Nat) (bs : List Byte) :
    BitVec (8 * nl) × BitVec (8 * nr) :=
  match order with
  | .leftFirst => (ofLE nl (bs.take nl), ofLE nr (bs.drop nl))
  | .rightFirst => (ofLE nl (bs.drop nr), ofLE nr (bs.take nr))

/-- Reads a two-part memory operand of `nl` and `nr` bytes. -/
def readPairWith (order : PartOrder) (s : State) (e : EffAddr) (nl nr : Nat) :
    Access (BitVec (8 * nl) × BitVec (8 * nr)) :=
  if offsetFits e.aw e.off (nl + nr) then
    match linReadBytes s.mem (s.linear e.seg e.off) (nl + nr) with
    | .error err => .error err
    | .ok bs => .ok (splitPair order nl nr bs)
  else .error (.refusal .offsetStraddle)

/-- m16:16 or m16:32, by the operand size: selector and offset (R149, R156). -/
def readFarPointer (s : State) (sz : SizeAttr) (e : EffAddr) : Access (Word16 × BitVec sz.bits) :=
  readPairWith (Config.multipartLayout .farPointer) s e 2 sz.bytes

/-- ptr16:16 or ptr16:32 in the trailing cd or cp field: selector and offset (R143, R149). -/
def farImmediate (sz : SizeAttr) (bs : List Byte) : Word16 × BitVec sz.bits :=
  splitPair (Config.multipartLayout .farImmediate) 2 sz.bytes bs

/-- The FAR pointer operand of a form with a trailing cd or cp, by the operand size (R106, R149). -/
def farOperand (sz : SizeAttr) (p : ParsedForm) : Word16 × BitVec sz.bits :=
  farImmediate sz p.trail

/-- m16 & 16 or m32 & 32: the two bounds of BOUND (R157). -/
def readBounds (s : State) (sz : SizeAttr) (e : EffAddr) :
    Access (BitVec sz.bits × BitVec sz.bits) :=
  readPairWith (Config.multipartLayout .bounds) s e sz.bytes sz.bytes

/-- m16 & 32: "a word with which to load the limit field, and a doubleword with which to load the base
field" (R157, R51). -/
def readLimitBase (s : State) (e : EffAddr) : Access TableReg :=
  match readPairWith (Config.multipartLayout .limitBase) s e 2 4 with
  | .error err => .error err
  | .ok p => .ok ⟨p.1, p.2⟩

/-- Loads the Global Descriptor Table Register from an m16 & 32 operand (R157, R51). -/
def loadGdtr (s : State) (e : EffAddr) : Access State :=
  match readLimitBase s e with
  | .error err => .error err
  | .ok r => .ok (s.setGdtr r)

/-- Loads the Interrupt Descriptor Table Register from an m16 & 32 operand (R157, R51). -/
def loadIdtr (s : State) (e : EffAddr) : Access State :=
  match readLimitBase s e with
  | .error err => .error err
  | .ok r => .ok (s.setIdtr r)

end Sys2Proof.Machine
end

