-- ==== Sys2Proof/Machine/AddrPseudocode.lean ====
section
/-! DEFINITION. The effective-address pseudocode of 30_encoding R131 written out line by line on raw
bytes, beside the addressing forms that the machine uses: statements say that the two agree. -/

namespace Sys2Proof.Machine

/-- What R131 returns: a register code, or an offset with its default segment; and the number of bytes
consumed from the ModR/M byte on. -/
inductive AddrResult where
  | register (code : BitVec 3) (consumed : Nat)
  | address (e : EffAddr) (consumed : Nat)
deriving DecidableEq, Repr

/-- A displacement of `n` bytes after the first `skip` bytes, if they are there. -/
def dispAt (bs : List Byte) (skip n : Nat) : Option (BitVec (8 * n)) :=
  if skip + n ≤ bs.length then some (ofLE n ((bs.drop skip).take n)) else none

/-- R131's `(b, seg)` for A = 16. -/
def r131Base16 (g : Gprs) (mod rm : Nat) : Word16 × Sreg :=
  match rm with
  | 0 => (g.get16 .bx + g.get16 .si, .ds)
  | 1 => (g.get16 .bx + g.get16 .di, .ds)
  | 2 => (g.get16 .bp + g.get16 .si, .ss)
  | 3 => (g.get16 .bp + g.get16 .di, .ss)
  | 4 => (g.get16 .si, .ds)
  | 5 => (g.get16 .di, .ds)
  | 6 => if mod = 0 then (0, .ds) else (g.get16 .bp, .ss)
  | _ => (g.get16 .bx, .ds)

/-- R131's branch A = 16; `bs` starts at the ModR/M byte. -/
def r131Addr16 (g : Gprs) (mod rm : Nat) (bs : List Byte) : Option AddrResult :=
  let b := r131Base16 g mod rm
  match mod with
  | 0 =>
    if rm = 6 then
      (dispAt bs 1 2).map fun d => .address ⟨b.2, (b.1 + d).setWidth 32, .s16⟩ 3
    else some (.address ⟨b.2, b.1.setWidth 32, .s16⟩ 1)
  | 1 =>
    (dispAt bs 1 1).map fun d =>
      .address ⟨b.2, (b.1 + BitVec.signExtend 16 d).setWidth 32, .s16⟩ 2
  | _ => (dispAt bs 1 2).map fun d => .address ⟨b.2, (b.1 + d).setWidth 32, .s16⟩ 3

/-- DefaultSeg32(r): SS if r = 4 or r = 5, else DS. -/
def r131Seg32 (r : Nat) : Sreg :=
  if r = 4 ∨ r = 5 then .ss else .ds

/-- The displacement of R131's branch A = 32 after `skip` bytes, and the address it completes. -/
def r131Finish32 (seg : Sreg) (b : Word32) (mod : Nat) (disp32Only : Bool) (bs : List Byte)
    (skip : Nat) : Option AddrResult :=
  match mod with
  | 0 =>
    if disp32Only then (dispAt bs skip 4).map fun d => .address ⟨seg, b + d, .s32⟩ (skip + 4)
    else some (.address ⟨seg, b, .s32⟩ skip)
  | 1 =>
    (dispAt bs skip 1).map fun d => .address ⟨seg, b + BitVec.signExtend 32 d, .s32⟩ (skip + 1)
  | _ => (dispAt bs skip 4).map fun d => .address ⟨seg, b + d, .s32⟩ (skip + 4)

/-- R131's branch A = 32 with a SIB byte. -/
def r131Sib (g : Gprs) (mod : Nat) (sib : Byte) (bs : List Byte) : Option AddrResult :=
  let ss := (sib.extractLsb' 6 2).toNat
  let index := sib.extractLsb' 3 3
  let base := sib.extractLsb' 0 3
  let x : Word32 :=
    if index.toNat = 4 then 0 else g.get (Reg32.ofCode index) * BitVec.ofNat 32 (2 ^ ss)
  if base.toNat = 5 ∧ mod = 0 then r131Finish32 .ds (0 + x) mod true bs 2
  else r131Finish32 (r131Seg32 base.toNat) (g.get (Reg32.ofCode base) + x) mod false bs 2

/-- R131's branch A = 32; `bs` starts at the ModR/M byte. -/
def r131Addr32 (g : Gprs) (mod : Nat) (rm : BitVec 3) (bs : List Byte) : Option AddrResult :=
  if rm.toNat ≠ 4 then
    if mod = 0 ∧ rm.toNat = 5 then r131Finish32 .ds 0 mod true bs 1
    else r131Finish32 (r131Seg32 rm.toNat) (g.get (Reg32.ofCode rm)) mod false bs 1
  else
    match bs[1]? with
    | none => none
    | some sib => r131Sib g mod sib bs

/-- The effective-address computation of R131 on the bytes from the ModR/M byte on. -/
def r131 (a : SizeAttr) (g : Gprs) (bs : List Byte) : Option AddrResult :=
  match bs with
  | [] => none
  | m :: _ =>
    if (m.extractLsb' 6 2).toNat = 3 then some (.register (m.extractLsb' 0 3) 1)
    else
      match a with
      | .s16 => r131Addr16 g (m.extractLsb' 6 2).toNat (m.extractLsb' 0 3).toNat bs
      | .s32 => r131Addr32 g (m.extractLsb' 6 2).toNat (m.extractLsb' 0 3) bs

/-- What the machine's own reading of the same bytes gives. -/
def addrOfForm (g : Gprs) (before : Nat) (p : BitVec 3 × RmForm × List Byte) : AddrResult :=
  match p with
  | (_, .reg code, rest) => .register code (before - rest.length)
  | (_, .mem m, rest) => .address (effAddr g m) (before - rest.length)

/-- The table of 30_encoding R132: how many bytes follow the ModR/M byte `m`, SIB byte and displacement
together; `next` is the byte after it, which is the SIB byte where there is one. -/
def bytesAfterModRM (a : SizeAttr) (m : Byte) (next : Option Byte) : Nat :=
  let mod := (m.extractLsb' 6 2).toNat
  let rm := (m.extractLsb' 0 3).toNat
  match a, mod with
  | .s16, 0 => if rm = 6 then 2 else 0
  | .s16, 1 => 1
  | .s16, 2 => 2
  | .s32, 0 =>
    if rm = 4 then 1 + (if next.map (fun b => b.extractLsb' 0 3) = some 5#3 then 4 else 0)
    else if rm = 5 then 4
    else 0
  | .s32, 1 => if rm = 4 then 1 + 1 else 1
  | .s32, 2 => if rm = 4 then 1 + 4 else 4
  | _, _ => 0

end Sys2Proof.Machine
end

