-- ==== Sys2Proof/Machine/Timing.lean ====
section
/-! DEFINITION. Clock counts, recorded for the reader: no meaning and no step reads them
(70_reset_and_hazards R206 to R211, D18; log 33). -/

namespace Sys2Proof.Machine

/-- One entry of a Clocks column (R208): the count for a register operand, the count for a memory
operand, and the count in Protected Mode where it differs. -/
structure ClockCount where
  register : Nat
  memory : Nat
  pm : Option Nat
deriving DecidableEq, Repr

/-- The count that applies (R208). -/
def ClockCount.clocks (c : ClockCount) (mode : Mode) (memoryOperand : Bool) : Nat :=
  match mode, c.pm with
  | .protectedMode, some n => n
  | _, _ => if memoryOperand then c.memory else c.register

/-- CMC takes 2 clocks (R171, R210). -/
def clocksCmc : ClockCount :=
  ⟨2, 2, none⟩

/-- "m", the number of components of an instruction: its displacement one, its immediate one, every
other byte one each (R208). -/
def components (otherBytes : Nat) (hasDisplacement hasImmediate : Bool) : Nat :=
  otherBytes + (if hasDisplacement then 1 else 0) + (if hasImmediate then 1 else 0)

/-- Table 17-5: the clocks of a task switch on an exception, by the old task's TSS and VM flag and the
new task's (R209). The row and the column of a 286 TSS name no VM and are read for both (DEDUCED, unsafe;
log 43); the table has no column for a new task with a 386 TSS and VM = 1 (C13, log 40). -/
def taskSwitchClocks (oldTss : TssType) (oldVm : Bool) (newTss : TssType) (newVm : Bool) : Option Nat :=
  match oldTss, oldVm, newTss, newVm with
  | .tss386, false, .tss386, false => some 309
  | .tss386, false, .tss286, _ => some 282
  | .tss386, true, .tss386, false => some 314
  | .tss386, true, .tss286, _ => some 231
  | .tss286, _, .tss386, false => some 307
  | .tss286, _, .tss286, _ => some 282
  | _, _, .tss386, true => none

/-- The clocks of a task switch out of the current task (R209). -/
def State.taskSwitchClocksTo (s : State) (newTss : TssType) (newVm : Bool) : Option Nat :=
  taskSwitchClocks s.tssType s.vm newTss newVm

end Sys2Proof.Machine
end

