-- ==== Sys2Proof/WellFormed.lean ====
section
/-! DEFINITION. Which terms stand for instructions and addressing forms that bytes can encode. -/

namespace Sys2Proof

/-- A prefix list holds at most one prefix of each group, and none of the groups already seen (R113,
D3). -/
def prefixesOk : List PrefixGroup → List Prefix → Bool
  | _, [] => true
  | seen, p :: ps => !seen.contains p.group && prefixesOk (p.group :: seen) ps

/-- A byte that is no prefix ends the prefixes and is the first opcode byte (R113). -/
def isOpcodeByte (b : Byte) : Bool :=
  Prefix.ofByte b == none

/-- An instruction is well-formed when its prefixes are one of each group at most and its opcode byte is
no prefix byte. -/
def Instr.wellFormed (i : Instr) : Bool :=
  prefixesOk [] i.prefixes && isOpcodeByte i.opcodeByte

/-- A SIB index is never ESP: code 100 is "none" (R127). -/
def indexOk : Option Reg32 → Bool
  | some r => r != .esp
  | none => true

/-- The memory forms a ModR/M byte (and SIB byte) can encode: [BP] alone, [EBP] alone and [ESP] without
a SIB byte have no encoding, nor has a SIB base EBP without a displacement (R121, R124, R127, R128). -/
def MemForm.wellFormed : MemForm → Bool
  | .based16 b d => !(b == .bp && d == .none)
  | .direct16 _ => true
  | .based32 r d => r != .esp && !(r == .ebp && d == .none)
  | .direct32 _ => true
  | .sib _ index base d => indexOk index && !(base == .ebp && d == .none)
  | .sibDirect _ index _ => indexOk index

/-- The same for an r/m operand: every register code names one (R120). -/
def RmForm.wellFormed : RmForm → Bool
  | .reg _ => true
  | .mem m => m.wellFormed

end Sys2Proof
end

