-- ==== Sys2Proof/Safety.lean ====
section
/-! DEFINITION. What claims about a run are stated in: the launch conditions a step keeps, the end of a run
and what a step may change (00_scope R6, 70_reset_and_hazards R202, R203, 92_eei_decisions P1 to P5). -/

namespace Sys2Proof.Machine

/-- What a launch state satisfies and every step keeps: memory is in canonical form, D = 0 unless the
mode is Protected (R101, R202 (b), P4), and pc lies in the offset range of the code segment (R45). -/
structure State.Inv (s : State) : Prop where
  memWf : s.mem.wf = true
  dBitConsistent : s.mode ≠ .protectedMode → s.dBit = false
  pcInRange : s.pc.toNat < 2 ^ s.codeSize.bits

/-- The program's bytes lie in memory (R202 (a)). -/
def State.programHeld (s : State) : Prop :=
  ∀ k, k < s.progLen → (s.mem.read (s.progLinear + BitVec.ofNat 32 k).toNat).isSome = true

/-- The bytes in memory from an offset of the code segment on are these, none past the segment's offset
range (R45, R73). -/
def State.codeAt (s : State) (off : Nat) (bs : List Byte) : Prop :=
  off + bs.length ≤ 2 ^ s.codeSize.bits ∧
    ∀ k, k < bs.length → s.mem.read (s.linear .cs (BitVec.ofNat 32 (off + k))).toNat = bs[k]?

/-- The memory holds these bytes at consecutive linear addresses. -/
def Memory.holds (m : Memory) (a : Word32) (bs : List Byte) : Prop :=
  ∀ k, k < bs.length → m.read (a + BitVec.ofNat 32 k).toNat = bs[k]?

/-- `n` bytes from a linear address on can be stored to: memory holds them (R84) and none is a byte of the
program (R89). -/
def State.writable (s : State) (a : Word32) (n : Nat) : Prop :=
  ∀ k, k < n → (s.mem.read (a + BitVec.ofNat 32 k).toNat).isSome = true ∧
    s.inProgram (a + BitVec.ofNat 32 k) = false

/-- The run is over and the state final: pc = start + len (R203). It says nothing of the chip, and step
does not look at it (log 12). -/
def State.runOver (s : State) : Bool :=
  s.pc.toNat == s.progStart.toNat + s.progLen

/-- Two states agree on everything but the carry flag and the program counter. -/
def State.sameButCfPc (s t : State) : Prop :=
  (t.setCf s.cf).setPc s.pc = s

/-- A state reached from another by steps that answer a next state. -/
inductive State.Reaches : State → State → Prop where
  | refl (s : State) : State.Reaches s s
  | tail {s t u : State} : State.Reaches s t → step t = .next u → State.Reaches s u

/-- Safe: no state a run reaches stops with a fault (a refusal is no fault). -/
def State.Safe (s : State) : Prop :=
  ∀ t, State.Reaches s t → ∀ f, step t ≠ .fault f

end Sys2Proof.Machine
end

