-- ==== Sys2Proof/Certificates/Slice0/Obligations.lean ====
section
/-! DEFINITION. The statements for the provers. `R<n>`, `D<n>` are rules and decisions of spec/; "log <n>"
is notes/assumptions/<n>.md. -/

open Sys2Proof Sys2Proof.Machine

/-! ### Decoding and encoding -/

/-- R161, R109 to R112: the twelve bytes of the opcode table, each alone in a table word, decode to their
rows; a prefix row reads the zero byte after it as its opcode byte (log 1). -/
def Obligations.TableWordsDecodeToTheirRows : Prop :=
  decodeTableWord 8 0xF5 = some .cmc ∧
  decodeTableWord 8 0xF3 = some (.repPrefix [] 0) ∧
  decodeTableWord 8 0xF2 = some (.repnePrefix [] 0) ∧
  decodeTableWord 8 0xF0 = some (.lockPrefix [] 0) ∧
  decodeTableWord 8 0x2E = some (.csOverride [] 0) ∧
  decodeTableWord 8 0x36 = some (.ssOverride [] 0) ∧
  decodeTableWord 8 0x3E = some (.dsOverride [] 0) ∧
  decodeTableWord 8 0x26 = some (.esOverride [] 0) ∧
  decodeTableWord 8 0x64 = some (.fsOverride [] 0) ∧
  decodeTableWord 8 0x65 = some (.gsOverride [] 0) ∧
  decodeTableWord 8 0x66 = some (.operandSizeOverride [] 0) ∧
  decodeTableWord 8 0x67 = some (.addressSizeOverride [] 0)

/-- R107, R113, R161: every well-formed instruction decodes from its own bytes, whatever follows. -/
def Obligations.DecodeEncodeRoundTrip : Prop :=
  ∀ (i : Instr) (rest : List Byte), i.wellFormed = true → decode (encode i ++ rest) = .ok (i, rest)

/-- R107, R113: whatever decodes is well-formed, and its bytes are the ones that were there. -/
def Obligations.DecodedBytesEncodeBack : Prop :=
  ∀ (bs rest : List Byte) (i : Instr), decode bs = .ok (i, rest) →
    i.wellFormed = true ∧ bs = encode i ++ rest

/-- R113, D3: the decoder reads prefixes in any order, at most one of each group, and refuses a second of
a group already seen, naming a group that two of them have (the order freedom and the refusal are the
spec's decision D3; log 31). -/
def Obligations.PrefixesInAnyOrderOnePerGroup : Prop :=
  ∀ (ps : List Prefix) (op : Byte) (rest : List Byte), Prefix.ofByte op = none →
    ((ps.map Prefix.group).Nodup →
      readPrefixes [] (ps.map Prefix.byte ++ op :: rest) = .ok (ps, op, rest)) ∧
    (¬ (ps.map Prefix.group).Nodup →
      ∃ g, 2 ≤ (ps.map Prefix.group).count g ∧
        readPrefixes [] (ps.map Prefix.byte ++ op :: rest) = .error (.repeatedPrefixGroup g))

/-- R113, R161, R162: the eleven prefix byte values, and every other first byte but F5 is "opcode not
shown" (D1). -/
def Obligations.OtherFirstBytesAreNotShown : Prop :=
  (∀ b : Byte, (Prefix.ofByte b).isSome = true ↔
    b ∈ ([0x26, 0x2E, 0x36, 0x3E, 0x64, 0x65, 0x66, 0x67, 0xF0, 0xF2, 0xF3] : List Byte)) ∧
  (∀ (b : Byte) (rest : List Byte), Prefix.ofByte b = none → b ≠ 0xF5 →
    decode (b :: rest) = .error (.opcodeNotShown b))

/-- R112: the segment override prefixes and their bytes, and the segment that the one among an
instruction's prefixes selects, wherever it stands. -/
def Obligations.SegmentOverrideBytes : Prop :=
  Prefix.ofByte 0x2E = some (.segment .cs) ∧ Prefix.ofByte 0x36 = some (.segment .ss) ∧
  Prefix.ofByte 0x3E = some (.segment .ds) ∧ Prefix.ofByte 0x26 = some (.segment .es) ∧
  Prefix.ofByte 0x64 = some (.segment .fs) ∧ Prefix.ofByte 0x65 = some (.segment .gs) ∧
  (∀ b x, Prefix.ofByte b = some (.segment x) →
    b ∈ ([0x2E, 0x36, 0x3E, 0x26, 0x64, 0x65] : List Byte)) ∧
  (∀ (ps : List Prefix) (x : Sreg), .segment x ∈ ps → (∀ y, .segment y ∈ ps → y = x) →
    ∀ (s : State) (e : EffAddr), (attrsOf s ps).segOverride = some x ∧
      e.override (attrsOf s ps).segOverride = ⟨x, e.off, e.aw⟩) ∧
  (∀ ps : List Prefix, (∀ y, .segment y ∉ ps) →
    ∀ (s : State) (e : EffAddr), (attrsOf s ps).segOverride = none ∧
      e.override (attrsOf s ps).segOverride = e)

/-- R117 to R132: every addressing form that an encoding exists for is read back from its bytes at its own
address size, a register at both. -/
def Obligations.AddressingFormRoundTrip : Prop :=
  ∀ (a : SizeAttr) (reg : BitVec 3) (f : RmForm) (rest : List Byte), f.wellFormed = true →
    (∀ m, f = .mem m → m.addressSize = a) → readRm a (f.encode reg ++ rest) = some (reg, f, rest)

/-- R117 to R132: whatever is read as an addressing form is well-formed at that address size, and its
bytes are the ones that were there. -/
def Obligations.AddressingBytesEncodeBack : Prop :=
  ∀ (a : SizeAttr) (bs rest : List Byte) (reg : BitVec 3) (f : RmForm),
    readRm a bs = some (reg, f, rest) →
    f.wellFormed = true ∧ (∀ m, f = .mem m → m.addressSize = a) ∧ bs = f.encode reg ++ rest

/-- R132: exactly the table's number of bytes is taken after the ModR/M byte, and the reading fails only
when they are not there. -/
def Obligations.BytesAfterModRmFollowTheTable : Prop :=
  ∀ (a : SizeAttr) (m : Byte) (bs : List Byte),
    (bytesAfterModRM a m bs.head? ≤ bs.length →
      ∃ f, readRm a (m :: bs) =
        some ((ModRM.ofByte m).reg, f, bs.drop (bytesAfterModRM a m bs.head?))) ∧
    (bs.length < bytesAfterModRM a m bs.head? → readRm a (m :: bs) = none)

/-- R126, R119: with a 32-bit address size a SIB byte follows exactly when mod is 00, 01 or 10 and r/m =
100; with a 16-bit address size there is none. -/
def Obligations.SibBytePresence : Prop :=
  (∀ (m : Byte) (bs rest : List Byte) (reg : BitVec 3) (f : RmForm),
    readRm .s32 (m :: bs) = some (reg, f, rest) →
    (((∃ ss i b d, f = .mem (.sib ss i b d)) ∨ (∃ ss i d, f = .mem (.sibDirect ss i d))) ↔
      ((ModRM.ofByte m).mod = 0 ∨ (ModRM.ofByte m).mod = 1 ∨ (ModRM.ofByte m).mod = 2) ∧
        (ModRM.ofByte m).rm = 4)) ∧
  (∀ (bs rest : List Byte) (reg : BitVec 3) (f : RmForm), readRm .s16 bs = some (reg, f, rest) →
    (∀ ss i b d, f ≠ .mem (.sib ss i b d)) ∧ (∀ ss i d, f ≠ .mem (.sibDirect ss i d)))

/-- R107, R115, R140 to R145: a form of the Opcode column takes bytes apart exactly when they are its
opcode bytes, then the addressing bytes of a form of that address size, then the trailing field, which is
last, laid out in that order. -/
def Obligations.OpcodeFormTakesItsFieldsInOrder : Prop :=
  ∀ (a : SizeAttr) (f : OpcodeForm) (bs rest : List Byte) (p : ParsedForm),
    readForm a f bs = some (p, rest) ↔
    p.trail.length = f.trail.bytes ∧
    ∃ (op : Byte) (addr : List Byte),
      bs = f.lead ++ op :: addr ++ p.trail ++ rest ∧
      (f.plusReg = false → op = f.opcode ∧ p.plusCode = none) ∧
      (f.plusReg = true → ∃ c, p.plusCode = some c ∧ op = f.opcode + c.setWidth 8) ∧
      (f.modrm = .none → addr = [] ∧ p.rm = none ∧ p.regField = none) ∧
      (∀ d, f.modrm = .digit d → ∃ m, p.rm = some m ∧ p.regField = none ∧ addr = m.encode d ∧
        m.wellFormed = true ∧ ∀ x, m = .mem x → x.addressSize = a) ∧
      (f.modrm = .slashR → ∃ m r, p.rm = some m ∧ p.regField = some r ∧ addr = m.encode r ∧
        m.wellFormed = true ∧ ∀ x, m = .mem x → x.addressSize = a)

/-! ### Registers and size attributes -/

/-- R40: the register codes at the three widths. -/
def Obligations.GeneralRegisterCodes : Prop :=
  ([0, 1, 2, 3, 4, 5, 6, 7] : List (BitVec 3)).map Reg8.ofCode =
    [.al, .cl, .dl, .bl, .ah, .ch, .dh, .bh] ∧
  ([0, 1, 2, 3, 4, 5, 6, 7] : List (BitVec 3)).map Reg16.ofCode =
    [.ax, .cx, .dx, .bx, .sp, .bp, .si, .di] ∧
  ([0, 1, 2, 3, 4, 5, 6, 7] : List (BitVec 3)).map Reg32.ofCode =
    [.eax, .ecx, .edx, .ebx, .esp, .ebp, .esi, .edi]

/-- R159: the segment register bit assignments. -/
def Obligations.SegmentRegisterCodes : Prop :=
  Sreg.ofCode 0 = some .es ∧ Sreg.ofCode 1 = some .cs ∧ Sreg.ofCode 2 = some .ss ∧
  Sreg.ofCode 3 = some .ds ∧ Sreg.ofCode 4 = some .fs ∧ Sreg.ofCode 5 = some .gs

/-- R44, D19: a segment register field of 6 or 7 is refused, every other names its register (the refusal
is the spec's decision; log 39). -/
def Obligations.UnassignedSegmentCodesRefused : Prop :=
  (∀ x : Sreg, sregOperand x.code = .ok x) ∧
  (∀ c : BitVec 3, 6 ≤ c.toNat → sregOperand c = .error (.refusal (.sregUnassigned c)))

/-- R42, D5: the word register of a code is bits 15:0 of the doubleword register of that code; the byte
registers of codes 0 to 3 are bits 7:0, those of codes 4 to 7 bits 15:8, of the doubleword registers of
codes 0 to 3; a write to one is read back and changes no other bit and no other register (GK2; PRESUMED by
the spec, log 28). -/
def Obligations.NarrowWritesChangeOnlyTheirBits : Prop :=
  (∀ (g : Gprs) (c : BitVec 3) (v : Word16),
    g.get16 (Reg16.ofCode c) = (g.get (Reg32.ofCode c)).extractLsb' 0 16 ∧
    (g.set16 (Reg16.ofCode c) v).get16 (Reg16.ofCode c) = v ∧
    (∀ k, 16 ≤ k → ((g.set16 (Reg16.ofCode c) v).get (Reg32.ofCode c)).getLsbD k =
      (g.get (Reg32.ofCode c)).getLsbD k) ∧
    (∀ q, q ≠ Reg32.ofCode c → (g.set16 (Reg16.ofCode c) v).get q = g.get q)) ∧
  (∀ (g : Gprs) (c : BitVec 3) (v : Byte), c.toNat < 4 →
    g.get8 (Reg8.ofCode c) = (g.get (Reg32.ofCode c)).extractLsb' 0 8 ∧
    (g.set8 (Reg8.ofCode c) v).get8 (Reg8.ofCode c) = v ∧
    (∀ k, 8 ≤ k → ((g.set8 (Reg8.ofCode c) v).get (Reg32.ofCode c)).getLsbD k =
      (g.get (Reg32.ofCode c)).getLsbD k) ∧
    (∀ q, q ≠ Reg32.ofCode c → (g.set8 (Reg8.ofCode c) v).get q = g.get q)) ∧
  (∀ (g : Gprs) (c : BitVec 3) (v : Byte), 4 ≤ c.toNat →
    g.get8 (Reg8.ofCode c) = (g.get (Reg32.ofCode (c - 4))).extractLsb' 8 8 ∧
    (g.set8 (Reg8.ofCode c) v).get8 (Reg8.ofCode c) = v ∧
    (∀ k, k < 8 ∨ 16 ≤ k → ((g.set8 (Reg8.ofCode c) v).get (Reg32.ofCode (c - 4))).getLsbD k =
      (g.get (Reg32.ofCode (c - 4))).getLsbD k) ∧
    (∀ q, q ≠ Reg32.ofCode (c - 4) → (g.set8 (Reg8.ofCode c) v).get q = g.get q))

/-- R103: Table 17-1, the effective size attributes. -/
def Obligations.EffectiveSizesFollowTable17_1 : Prop :=
  ∀ (ps : List Prefix) (d : Bool),
    (operandSize d ps, addressSize d ps) =
      match d, ps.contains .operandSize, ps.contains .addressSize with
      | false, false, false => (.s16, .s16)
      | false, false, true => (.s16, .s32)
      | false, true, false => (.s32, .s16)
      | false, true, true => (.s32, .s32)
      | true, false, false => (.s32, .s32)
      | true, false, true => (.s32, .s16)
      | true, true, false => (.s16, .s32)
      | true, true, true => (.s16, .s16)

/-- R101: in protected mode the D-bit gives the default of both attributes, in the other modes it is 16
bits. -/
def Obligations.DefaultSizesByModeAndDBit : Prop :=
  ∀ s : State,
    (s.mode = .protectedMode → s.dBit = false →
      attrsOf s [] = ⟨.s16, .s16, none⟩) ∧
    (s.mode = .protectedMode → s.dBit = true →
      attrsOf s [] = ⟨.s32, .s32, none⟩) ∧
    (s.mode = .realMode ∨ s.mode = .virtual8086 →
      attrsOf s [] = ⟨.s16, .s16, none⟩ ∧ s.codeD = false)

/-- R49, R82, R105: the stack address size is the B-bit's alone, and eSP is SP zero-extended or ESP (that
SP is ESP[15:0] is R42, GK2, adopted by D5: PRESUMED, log 28). -/
def Obligations.StackPointerByBBit : Prop :=
  ∀ s : State,
    (s.bBit = false → s.stackAddrSize = .s16 ∧ s.stackPtr.toNat = s.gprs.esp.toNat % 2 ^ 16) ∧
    (s.bBit = true → s.stackAddrSize = .s32 ∧ s.stackPtr = s.gprs.esp)

/-- R16: Truncate to 16 bits keeps value[15:0]. -/
def Obligations.TruncateKeepsLowWord : Prop :=
  ∀ (w : Nat) (v : BitVec w), (truncateTo16 v).toNat = v.toNat % 2 ^ 16

/-- R18: ZeroExtend to the operand size, its example, and the same-size case. -/
def Obligations.ZeroExtendToOperandSize : Prop :=
  (∀ (sz : SizeAttr) (w : Nat) (v : BitVec w), w ≤ sz.bits →
    (zeroExtendTo sz v).toNat = v.toNat) ∧
  (zeroExtendTo .s32 (0xF6 : Byte)).toNat = 0x000000F6 ∧
  (∀ (sz : SizeAttr) (v : BitVec sz.bits), zeroExtendTo sz v = v)

/-- R19: SignExtend to the operand size, its example, and the same-size case. -/
def Obligations.SignExtendToOperandSize : Prop :=
  (∀ (sz : SizeAttr) (w : Nat) (v : BitVec w), w ≤ sz.bits →
    (signExtendTo sz v).toInt = v.toInt) ∧
  (signExtendTo .s32 (0xF6 : Byte)).toNat = 0xFFFFFFF6 ∧
  (∀ (sz : SizeAttr) (v : BitVec sz.bits), signExtendTo sz v = v)

/-- R150, R151, R152, R146: imm8 is a signed number between -128 and +127, sign-extended to a word or
doubleword; imm16 is the word of a trailing iw, every number between -32768 and +32767, imm32 the
doubleword of a trailing id, every number between -2147483648 and +2147483647, the low-order byte first. -/
def Obligations.ImmediatesAreSigned : Prop :=
  (∀ (sz : SizeAttr) (b : Byte) (p : ParsedForm), p.trail = [b] →
    (imm8Operand sz p).toInt = b.toInt ∧
    -128 ≤ (imm8Operand sz p).toInt ∧ (imm8Operand sz p).toInt ≤ 127 ∧
    (∀ k, k < 8 → (imm8Operand sz p).getLsbD k = b.getLsbD k) ∧
    (∀ k, 8 ≤ k → k < sz.bits → (imm8Operand sz p).getLsbD k = b.getLsbD 7)) ∧
  (TrailField.immOf .s16 = .iw ∧ TrailField.immOf .s32 = .id ∧
    TrailField.iw.bytes = 2 ∧ TrailField.id.bytes = 4) ∧
  (∀ (p : ParsedForm) (b0 b1 : Byte), p.trail = [b0, b1] →
    immOperand .s16 p = b1 ++ b0 ∧ immNumber .s16 p = b0.toNat + 256 * b1.toInt) ∧
  (∀ (p : ParsedForm) (b0 b1 b2 b3 : Byte), p.trail = [b0, b1, b2, b3] →
    immOperand .s32 p = b3 ++ b2 ++ b1 ++ b0 ∧
    immNumber .s32 p = b0.toNat + 256 * b1.toNat + 65536 * b2.toNat + 16777216 * b3.toInt) ∧
  (∀ p : ParsedForm, -32768 ≤ immNumber .s16 p ∧ immNumber .s16 p ≤ 32767 ∧
    -2147483648 ≤ immNumber .s32 p ∧ immNumber .s32 p ≤ 2147483647) ∧
  (∀ n : Int, -32768 ≤ n → n ≤ 32767 →
    ∃ b0 b1 : Byte, ∀ p : ParsedForm, p.trail = [b0, b1] → immNumber .s16 p = n) ∧
  (∀ n : Int, -2147483648 ≤ n → n ≤ 2147483647 →
    ∃ b0 b1 b2 b3 : Byte, ∀ p : ParsedForm, p.trail = [b0, b1, b2, b3] → immNumber .s32 p = n)

/-! ### Effective addresses and operands -/

/-- R131: on every byte string the machine's addressing forms give the pseudocode's result: the same
register, or the same offset, default segment and number of bytes consumed (the 32-bit default segments
are GK6, log 29; the wraps D24, log 30). -/
def Obligations.EffectiveAddressFollowsR131 : Prop :=
  ∀ (a : SizeAttr) (g : Gprs) (bs : List Byte),
    (readRm a bs).map (addrOfForm g bs.length) = r131 a g bs

/-- R120: mod = 11 names a register for both address sizes, read and written at the operand's width; no
SIB byte and no displacement follow and no memory is addressed; a doubleword write keeps the other
registers. -/
def Obligations.Mod11IsARegister : Prop :=
  ∀ (a : SizeAttr) (reg rm : BitVec 3) (rest : List Byte),
    readRm a (ModRM.toByte ⟨3, reg, rm⟩ :: rest) = some (reg, .reg rm, rest) ∧
    ∀ (s : State) (o : Option Sreg),
      readPlace .byte s (rmPlace s o (.reg rm)) = .ok (s.gprs.get8 (Reg8.ofCode rm)) ∧
      readPlace .word s (rmPlace s o (.reg rm)) = .ok (s.gprs.get16 (Reg16.ofCode rm)) ∧
      readPlace .dword s (rmPlace s o (.reg rm)) = .ok (s.gprs.get (Reg32.ofCode rm)) ∧
      (∀ v : Byte, writePlace .byte s v (rmPlace s o (.reg rm)) =
        .ok { s with gprs := s.gprs.set8 (Reg8.ofCode rm) v }) ∧
      (∀ v : Word16, writePlace .word s v (rmPlace s o (.reg rm)) =
        .ok { s with gprs := s.gprs.set16 (Reg16.ofCode rm) v }) ∧
      (∀ v : Word32, writePlace .dword s v (rmPlace s o (.reg rm)) =
          .ok { s with gprs := s.gprs.set (Reg32.ofCode rm) v } ∧
        (s.gprs.set (Reg32.ofCode rm) v).get (Reg32.ofCode rm) = v ∧
        ∀ q, q ≠ Reg32.ofCode rm → (s.gprs.set (Reg32.ofCode rm) v).get q = s.gprs.get q)

/-- R79: with 16-bit addressing the default segment is SS for the forms containing BP, DS for the others,
by mod and r/m. -/
def Obligations.DefaultSegmentsOf16BitForms : Prop :=
  ∀ (g : Gprs) (mod : BitVec 2) (rm : BitVec 3) (bs rest : List Byte) (m : MemForm), mod ≠ 3 →
    readMem .s16 mod rm bs = some (m, rest) →
    (effAddr g m).seg = if rm = 2 ∨ rm = 3 ∨ (rm = 6 ∧ mod ≠ 0) then .ss else .ds

/-- R127, R131: the scaled index: the register of the index field times 2^ss, none at 100 for every ss
(the reduction modulo 2^32 is D24, log 30). -/
def Obligations.ScaledIndexByFields : Prop :=
  ([0, 1, 2, 3, 4, 5, 6, 7] : List (BitVec 3)).map indexOfCode =
    [some .eax, some .ecx, some .edx, some .ebx, none, some .ebp, some .esi, some .edi] ∧
  ∀ (g : Gprs) (ss : BitVec 2),
    scaledIndex g ss none = 0 ∧
    ∀ r, (scaledIndex g ss (some r)).toNat = (g.get r).toNat * 2 ^ ss.toNat % 2 ^ 32

/-- R81, R83, R155: an override replaces the default segment of an r/m operand and of the string source,
and leaves the string destination in ES; the offsets are SI and DI at address size 16, and at 32 either
ESI and EDI or SI and DI (which is open, log 17; the offset range is log 42). That an override reaches
moffs too is the model's reading, log 18, and not claimed here. -/
def Obligations.OverrideReplacesDefaultSegment : Prop :=
  ∀ (s : State) (o : SizeAttr) (ov : Option Sreg) (ext : Bool),
    (∀ (x : Sreg) (m : MemForm),
      rmPlace s (some x) (.mem m) = .mem ⟨x, (effAddr s.gprs m).off, (effAddr s.gprs m).aw⟩ ∧
      rmPlace s none (.mem m) = .mem (effAddr s.gprs m)) ∧
    stringSource s ⟨o, .s16, ov⟩ ext =
      .mem ⟨ov.getD .ds, (s.gprs.get16 .si).setWidth 32, .s16⟩ ∧
    stringDest s ⟨o, .s16, ov⟩ ext = .mem ⟨.es, (s.gprs.get16 .di).setWidth 32, .s16⟩ ∧
    stringSource s ⟨o, .s32, ov⟩ true = .mem ⟨ov.getD .ds, s.gprs.esi, .s32⟩ ∧
    stringDest s ⟨o, .s32, ov⟩ true = .mem ⟨.es, s.gprs.edi, .s32⟩ ∧
    stringSource s ⟨o, .s32, ov⟩ false =
      .mem ⟨ov.getD .ds, (s.gprs.get16 .si).setWidth 32, .s32⟩ ∧
    stringDest s ⟨o, .s32, ov⟩ false = .mem ⟨.es, (s.gprs.get16 .di).setWidth 32, .s32⟩

/-- R147, R148, R146: a relative target is the sum from the end of the instruction, which for rel8 lies
from 128 bytes before it to 127 after it; the target is given where no truncation could change it (log
20); rel8 is the byte of a trailing cb, rel16 the word of a cw, rel32 the doubleword of a cd, the low-order
byte first. -/
def Obligations.RelativeTargetFromEndOfInstruction : Prop :=
  (∀ (s : State) (len : Nat) (rel : BitVec 8),
    (s.pc.toNat : Int) + len - 128 ≤ relSum s len rel ∧
      relSum s len rel ≤ (s.pc.toNat : Int) + len + 127) ∧
  (∀ (s : State) (len w : Nat) (rel : BitVec w) (t : Word32), relTarget s len rel = .ok t →
    (t.toNat : Int) = s.pc.toNat + len + rel.toInt) ∧
  (∀ (s : State) (len w : Nat) (rel : BitVec w),
    0 ≤ (s.pc.toNat : Int) + len + rel.toInt → (s.pc.toNat : Int) + len + rel.toInt < 2 ^ 16 →
    ∃ t, relTarget s len rel = .ok t) ∧
  (∀ (s : State) (len : Nat) (p : ParsedForm) (b0 b1 b2 b3 : Byte),
    (p.trail = [b0] → rel8Operand s len p = relTarget s len b0) ∧
    (p.trail = [b0, b1] → relOperand .s16 s len p = relTarget s len (b1 ++ b0)) ∧
    (p.trail = [b0, b1, b2, b3] →
      relOperand .s32 s len p = relTarget s len (b3 ++ b2 ++ b1 ++ b0)))

/-- R75, D23: a two-part operand is read, in either order, exactly when it fits its offset range and its two
parts, the left part low or the right part low, can be read by themselves, and gives those parts (the
refusal past the range is D26). -/
def Obligations.TwoPartOperandsInEitherOrder : Prop :=
  ∀ (s : State) (e : EffAddr) (nl nr : Nat) (l : BitVec (8 * nl)) (r : BitVec (8 * nr)),
    (readPairWith .leftFirst s e nl nr = .ok (l, r) ↔ offsetFits e.aw e.off (nl + nr) = true ∧
      linRead s.mem (s.linear e.seg e.off) nl = .ok l ∧
      linRead s.mem (s.linear e.seg e.off + BitVec.ofNat 32 nl) nr = .ok r) ∧
    (readPairWith .rightFirst s e nl nr = .ok (l, r) ↔ offsetFits e.aw e.off (nl + nr) = true ∧
      linRead s.mem (s.linear e.seg e.off) nr = .ok r ∧
      linRead s.mem (s.linear e.seg e.off + BitVec.ofNat 32 nr) nl = .ok l)

/-- R157, R51: a descriptor table register is loaded with the limit word and the base doubleword of an
m16 & 32 operand, in the layout the machine has (log 16), and nothing else changes. -/
def Obligations.TableRegistersLoadLimitAndBase : Prop :=
  ∀ (s : State) (e : EffAddr) (limit : Word16) (base : Word32),
    offsetFits e.aw e.off 6 = true →
    ((Config.multipartLayout .limitBase = .leftFirst →
        s.mem.holds (s.linear e.seg e.off) (toLE 2 limit ++ toLE 4 base)) ∧
      (Config.multipartLayout .limitBase = .rightFirst →
        s.mem.holds (s.linear e.seg e.off) (toLE 4 base ++ toLE 2 limit))) →
    loadGdtr s e = .ok { s with gdtr := ⟨limit, base⟩ } ∧
    loadIdtr s e = .ok { s with idtr := ⟨limit, base⟩ }

/-! ### Memory, the stack, bits and the I/O permission bitmap -/

/-- R70, R78, R9: LinWrite at any address stores byte k of the value at address + k, changes no other
byte and nothing but memory, and keeps memory's canonical form (the addresses wrap, log 8). -/
def Obligations.LinearWriteStoresLittleEndian : Prop :=
  ∀ (s t : State) (a : Word32) (n : Nat) (v : BitVec (8 * n)), n ≤ 2 ^ 32 →
    linWrite s a n v = .ok t →
    (∀ k, k < n →
      t.mem.read (a + BitVec.ofNat 32 k).toNat = some (v.extractLsb' (8 * k) 8)) ∧
    (∀ x : Nat, (∀ k, k < n → (a + BitVec.ofNat 32 k).toNat ≠ x) →
      t.mem.read x = s.mem.read x) ∧
    t = { s with mem := t.mem } ∧ (s.mem.wf = true → t.mem.wf = true)

/-- R84, R89, D8: LinWrite completes where memory holds every byte and none is the program's; where
memory holds every byte and one is the program's, it is refused. -/
def Obligations.LinearWriteCompletesOutsideTheProgram : Prop :=
  ∀ (s : State) (a : Word32) (n : Nat) (v : BitVec (8 * n)), n ≤ 2 ^ 32 →
    (s.writable a n → ∃ t, linWrite s a n v = .ok t) ∧
    ((∀ k, k < n → (s.mem.read (a + BitVec.ofNat 32 k).toNat).isSome = true) →
      (∃ k, k < n ∧ s.inProgram (a + BitVec.ofNat 32 k) = true) →
      ∃ x, s.inProgram x = true ∧ linWrite s a n v = .error (.refusal (.storeIntoProgram x)))

/-- R70, R74, R71: MemRead gives the value whose bytes, low-order first, memory holds at SegBase + offset;
past the top of the offset range it is refused (the refusal is the spec's decision D26). -/
def Obligations.SegmentReadIsLittleEndian : Prop :=
  ∀ (s : State) (seg : Sreg) (aw : SizeAttr) (off : Word32) (n : Nat) (v : BitVec (8 * n)),
    (off.toNat + n ≤ 2 ^ aw.bits →
      s.mem.holds (s.bases.get seg + off) (toLE n v) → memRead s seg aw off n = .ok v) ∧
    (2 ^ aw.bits < off.toNat + n → memRead s seg aw off n = .error (.refusal .offsetStraddle))

/-- R21: Push decrements SP or ESP by the operand's bytes and stores the value there in SS, low-order byte
at the lowest address; every other register, byte and field keeps its value (that ESP[31:16] stays is R22,
R42, log 28; the wrap of the pointer is D25, log 30). -/
def Obligations.PushStoresBelowTheStackTop : Prop :=
  ∀ (s : State) (sz : SizeAttr) (v : BitVec sz.bits) (sp : Word32),
    (s.bBit = false → sp = ((s.gprs.get16 .sp) - BitVec.ofNat 16 sz.bytes).setWidth 32) →
    (s.bBit = true → sp = s.gprs.esp - BitVec.ofNat 32 sz.bytes) →
    sp.toNat + sz.bytes ≤ 2 ^ s.stackAddrSize.bits →
    s.writable (s.bases.ss + sp) sz.bytes →
    ∃ t : State, push sz v s = .ok t ∧
      (s.bBit = false → t.gprs = s.gprs.set16 .sp (sp.setWidth 16)) ∧
      (s.bBit = true → t.gprs = s.gprs.set .esp sp) ∧
      t.mem.holds (s.bases.ss + sp) (toLE sz.bytes v) ∧
      (∀ x : Nat, (∀ k, k < sz.bytes → (s.bases.ss + sp + BitVec.ofNat 32 k).toNat ≠ x) →
        t.mem.read x = s.mem.read x) ∧
      t = { s with gprs := t.gprs, mem := t.mem }

/-- R23: Pop reads the value at SP or ESP in SS and then increments the pointer by the operand's bytes;
nothing else changes (that ESP[31:16] stays is R22, R42, log 28; the wrap of the pointer is D25, log 30). -/
def Obligations.PopReadsTheStackTop : Prop :=
  ∀ (s : State) (sz : SizeAttr) (v : BitVec sz.bits),
    s.stackPtr.toNat + sz.bytes ≤ 2 ^ s.stackAddrSize.bits →
    s.mem.holds (s.bases.ss + s.stackPtr) (toLE sz.bytes v) →
    (s.bBit = false → pop sz s = .ok (v,
      { s with gprs := s.gprs.set16 .sp (s.gprs.get16 .sp + BitVec.ofNat 16 sz.bytes) })) ∧
    (s.bBit = true → pop sz s = .ok (v,
      { s with gprs := s.gprs.set .esp (s.gprs.esp + BitVec.ofNat 32 sz.bytes) }))

/-- R24: Push then Pop at the same attributes returns the pushed value and restores SP or ESP; only the
stored bytes differ. -/
def Obligations.PushThenPopReturnsTheValue : Prop :=
  ∀ (s t : State) (sz : SizeAttr) (v : BitVec sz.bits), push sz v s = .ok t →
    pop sz t = .ok (v, { s with mem := t.mem })

/-- R27: bit `8 * q + r` of a memory bit string is bit r of the byte at BitBase + q, for every offset of
its range and 0 <= r < 8 (the range's ends are the spec's inference, the linear address modulo 2^32 is
log 35). -/
def Obligations.BitInMemoryByFloorDivision : Prop :=
  ∀ (a : Word32) (q r : Int), 0 ≤ r → r < 8 → -(2 ^ 31) ≤ 8 * q + r → 8 * q + r < 2 ^ 31 →
    bitPlace (.memory a) (8 * q + r) = .ok (.inMemory (a + BitVec.ofInt 32 q) r.toNat)

/-- R74: bit b of a bit string in memory is bit b of the doubleword there, for b from 0 to 31. -/
def Obligations.BitStringIsTheDoubleword : Prop :=
  ∀ (s : State) (a v : Word32) (b : Nat), b < 32 → s.mem.holds a (toLE 4 v) →
    ∃ p, bitPlace (.memory a) b = .ok p ∧ readBit s p = .ok (v.getLsbD b)

/-- R26, D21: with a doubleword register base an offset of 0 to 31 names that bit of the register; any
other offset, and a word register base at any offset, is refused (the refusals are the spec's decision); a
byte register base is refused too (the model's choice, log 41). -/
def Obligations.BitInARegister : Prop :=
  (∀ (s : State) (code : BitVec 3) (k : Nat), k ≤ 31 →
    ∃ p, bitPlace (.register .dword code) k = .ok p ∧
      readBit s p = .ok ((s.gprs.get (Reg32.ofCode code)).getLsbD k)) ∧
  (∀ (code : BitVec 3) (k : Int), k < 0 ∨ 31 < k →
    bitPlace (.register .dword code) k = .error (.refusal .bitOffsetOutOfRange)) ∧
  (∀ (code : BitVec 3) (k : Int),
    bitPlace (.register .word code) k = .error (.refusal .bitBaseRegister)) ∧
  (∀ (code : BitVec 3) (k : Int),
    bitPlace (.register .byte code) k = .error (.refusal .bitBaseRegister))

/-- R28, R29: the bitmap test passes exactly when the bits of the bit string at Ptr numbered from the I/O
address on, one for each byte of the access, are all 0; it reads two bytes. -/
def Obligations.IoBitmapTestReadsTheAccessBits : Prop :=
  ∀ (m : Memory) (ptr io : Word32) (w : Width) (b0 b1 : Byte),
    m.holds ((io >>> 3) + ptr) [b0, b1] →
    ∃ r, ioBitmapClear m ptr io w = .ok r ∧
      (r = true ↔ ∀ j, j < w.bytes →
        (if io.toNat % 8 + j < 8 then b0.getLsbD (io.toNat % 8 + j)
          else b1.getLsbD (io.toNat % 8 + j - 8)) = false)

/-- R28, R30: the bitmap pointer is the 2 or 4 bytes at TssBase + 66 or + 102, low-order byte first, plus
TssBase where it is relative (the three are open, log 13; sums modulo 2^32); with a 286 TSS the answer is
FALSE; with a 386 TSS it is the bitmap test at that pointer and the other factors, which can only withhold
(the model's choice, log 14); TRUE is answered only so. -/
def Obligations.IoPermissionNeedsTheBitmap : Prop :=
  (∀ (m : Memory) (tss v : Word32) (v16 : Word16),
    (m.holds (tss + 66) (toLE 2 v16) →
      ioMapPtr m tss .decimal66 .s16 false = .ok (v16.setWidth 32) ∧
      ioMapPtr m tss .decimal66 .s16 true = .ok (v16.setWidth 32 + tss)) ∧
    (m.holds (tss + 102) (toLE 2 v16) →
      ioMapPtr m tss .hex66 .s16 false = .ok (v16.setWidth 32) ∧
      ioMapPtr m tss .hex66 .s16 true = .ok (v16.setWidth 32 + tss)) ∧
    (m.holds (tss + 66) (toLE 4 v) →
      ioMapPtr m tss .decimal66 .s32 false = .ok v ∧
      ioMapPtr m tss .decimal66 .s32 true = .ok (v + tss)) ∧
    (m.holds (tss + 102) (toLE 4 v) →
      ioMapPtr m tss .hex66 .s32 false = .ok v ∧
      ioMapPtr m tss .hex66 .s32 true = .ok (v + tss))) ∧
  ∀ (off : IomapPtrOffset) (wd : SizeAttr) (rel other : Bool) (s : State) (io : Word32) (w : Width),
    (s.tssType = .tss286 → ioPermissionWith off wd rel other s io w = .ok false) ∧
    (∀ (ptr : Word32) (b : Bool), s.tssType = .tss386 →
      ioMapPtr s.mem s.tssBase off wd rel = .ok ptr → ioBitmapClear s.mem ptr io w = .ok b →
      ioPermissionWith off wd rel other s io w = .ok (b && other)) ∧
    (ioPermissionWith off wd rel other s io w = .ok true →
      s.tssType = .tss386 ∧ ∃ ptr, ioMapPtr s.mem s.tssBase off wd rel = .ok ptr ∧
        ioBitmapClear s.mem ptr io w = .ok true)

/-! ### Exceptions, flags, clocks -/

/-- R181, R187: raising an exception of Table 17-6 ends the run in a fault that records its name, its
interrupt number and its error code. -/
def Obligations.RaiseRecordsTable17_6 : Prop :=
  ∀ code : Option Nat,
    raise .ud code = .fault (.exception .ud 6 code) ∧
    raise .nm code = .fault (.exception .nm 7 code) ∧
    raise .df code = .fault (.exception .df 8 code) ∧
    raise .ts code = .fault (.exception .ts 10 code) ∧
    raise .np code = .fault (.exception .np 11 code) ∧
    raise .ss code = .fault (.exception .ss 12 code) ∧
    raise .gp code = .fault (.exception .gp 13 code) ∧
    raise .pf code = .fault (.exception .pf 14 code) ∧
    raise .mf code = .fault (.exception .mf 16 code)

/-- R32, R33, D14: what a flag's entry does to CF: unchanged, 0, 1, the assigned value, or for every index
of draws the free value of that index, a new one each time; nothing else changes (the free value is the
model's field draws, log 19). -/
def Obligations.FlagsAffectedConvention : Prop :=
  ∀ (s : State) (b : Bool),
    applyCf .unchanged s = s ∧
    applyCf .cleared s = { s with cf := false } ∧
    applyCf .set s = { s with cf := true } ∧
    applyCf (.assigned b) s = { s with cf := b } ∧
    applyCf .undefined s = { s with cf := Config.freeFlag s.draws, draws := s.draws + 1 }

/-- R209, R210: the task switch times of Table 17-5, and the 2 clocks of CMC in every mode. That the row and
the column of a 286 TSS hold for either VM is log 43, that there is no count for a new task with a 386 TSS
and VM = 1 is C13, log 40. -/
def Obligations.ClockTables : Prop :=
  taskSwitchClocks .tss386 false .tss386 false = some 309 ∧
  taskSwitchClocks .tss386 true .tss386 false = some 314 ∧
  (∀ newVm : Bool, taskSwitchClocks .tss386 false .tss286 newVm = some 282 ∧
    taskSwitchClocks .tss386 true .tss286 newVm = some 231) ∧
  (∀ oldVm newVm : Bool, taskSwitchClocks .tss286 oldVm .tss386 false = some 307 ∧
    taskSwitchClocks .tss286 oldVm .tss286 newVm = some 282) ∧
  (∀ (old : TssType) (oldVm : Bool), taskSwitchClocks old oldVm .tss386 true = none) ∧
  ∀ (m : Mode) (memoryOperand : Bool), clocksCmc.clocks m memoryOperand = 2

/-! ### Instructions -/

/-- R171, R45: CMC answers the state with the carry flag complemented and pc one further, and nothing else
changed: no register, no byte of memory, no other field (GK5, log 27). Where pc + 1 passes the offset range
the step is refused (the spec's decision D4). -/
def Obligations.CmcComplementsCarry : Prop :=
  ∀ s : State,
    (s.pc.toNat + 1 < 2 ^ s.codeSize.bits →
      exec .cmc s = .next { s with cf := !s.cf, pc := s.pc + 1 }) ∧
    (2 ^ s.codeSize.bits ≤ s.pc.toNat + 1 → exec .cmc s = .refused .pcBeyondRange)

/-- R173, D2: with ADMIT_PREFIXED_CMC, a CMC whose prefixes are 66H, 67H and segment overrides runs as CMC
and passes all its bytes; nothing else changes. -/
def Obligations.PrefixedCmcRunsWhenAdmitted : Prop :=
  ∀ (s : State) (more : List Prefix), s.admitPrefixedCmc = true →
    (∀ p ∈ more, p ≠ .rep ∧ p ≠ .repne ∧ p ≠ .lock) →
    s.pc.toNat + (more.length + 2) < 2 ^ s.codeSize.bits →
    let t : State := { s with cf := !s.cf, pc := s.pc + BitVec.ofNat 32 (more.length + 2) }
    exec (.csOverride more 0xF5) s = .next t ∧
    exec (.ssOverride more 0xF5) s = .next t ∧
    exec (.dsOverride more 0xF5) s = .next t ∧
    exec (.esOverride more 0xF5) s = .next t ∧
    exec (.fsOverride more 0xF5) s = .next t ∧
    exec (.gsOverride more 0xF5) s = .next t ∧
    exec (.operandSizeOverride more 0xF5) s = .next t ∧
    exec (.addressSizeOverride more 0xF5) s = .next t

/-- R173, D2, D4: without ADMIT_PREFIXED_CMC such a CMC is refused; with it, it is refused where its end
passes the offset range. -/
def Obligations.PrefixedCmcStops : Prop :=
  ∀ (s : State) (i : Instr), i.opcodeByte = 0xF5 → i.prefixes ≠ [] →
    (∀ p ∈ i.prefixes, p ≠ .rep ∧ p ≠ .repne ∧ p ≠ .lock) →
    (s.admitPrefixedCmc = false → exec i s = .refused .prefixedCmc) ∧
    (s.admitPrefixedCmc = true → 2 ^ s.codeSize.bits ≤ s.pc.toNat + i.length →
      exec i s = .refused .pcBeyondRange)

/-- R109, R173, D20: an instruction that begins with F3, F2 or F0 is refused under every parameter
setting, and so is one that carries such a prefix later (that this refusal, and not "opcode not shown", is
the one reported for every opcode is the model's order, log 3). -/
def Obligations.InstructionPrefixesAreRefused : Prop :=
  (∀ (more : List Prefix) (op : Byte) (s : State),
    exec (.repPrefix more op) s = .refused (.instructionPrefix .rep) ∧
    exec (.repnePrefix more op) s = .refused (.instructionPrefix .repne) ∧
    exec (.lockPrefix more op) s = .refused (.instructionPrefix .lock)) ∧
  (∀ (i : Instr) (s : State), (.rep ∈ i.prefixes ∨ .repne ∈ i.prefixes ∨ .lock ∈ i.prefixes) →
    ∃ p, (p = .rep ∨ p = .repne ∨ p = .lock) ∧ p ∈ i.prefixes ∧
      exec i s = .refused (.instructionPrefix p))

/-- R162, D1: a prefixed instruction with an opcode other than F5 is refused, "opcode not shown" (where it
carries F0, F2 or F3 it is refused for that, log 3). -/
def Obligations.PrefixedUnshownOpcodesAreRefused : Prop :=
  ∀ (i : Instr) (s : State), i.opcodeByte ≠ 0xF5 →
    (∀ p ∈ i.prefixes, p ≠ .rep ∧ p ≠ .repne ∧ p ≠ .lock) →
    exec i s = .refused (.opcodeNotShown i.opcodeByte)

/-- R172: the effect of CMC does not depend on the mode, the D-bit, the B-bit, a register, a base or
memory: where both machines stay in range, equal carry and pc give equal carry and pc. -/
def Obligations.CmcIgnoresModeAndSizes : Prop :=
  ∀ s t : State, s.cf = t.cf → s.pc = t.pc →
    s.pc.toNat + 1 < 2 ^ s.codeSize.bits → t.pc.toNat + 1 < 2 ^ t.codeSize.bits →
    ∃ s' t', exec .cmc s = .next s' ∧ exec .cmc t = .next t' ∧ s'.cf = t'.cf ∧ s'.pc = t'.pc

/-! ### Steps -/

/-- R45, R73: when the bytes that can be fetched at pc decode to an instruction, the step is that
instruction's execution. -/
def Obligations.StepRunsTheDecodedInstruction : Prop :=
  ∀ (s : State) (i : Instr) (rest : List Byte), decode s.fetched.1 = .ok (i, rest) →
    step s = exec i s

/-- R45, R73, R107: when memory holds the bytes of a well-formed instruction from SegBase(CS) + pc on,
inside the offset range, the step executes that instruction, whatever else memory holds. -/
def Obligations.StepRunsTheInstructionInMemory : Prop :=
  ∀ (s : State) (i : Instr), i.wellFormed = true → s.codeAt s.pc.toNat (encode i) →
    step s = exec i s

/-- R84, D13: a fetch at an address memory does not hold gives no step. -/
def Obligations.FetchOfAnUnheldByteIsStuck : Prop :=
  ∀ s : State, s.pc.toNat < 2 ^ s.codeSize.bits →
    s.mem.read (s.bases.cs + s.pc).toNat = none →
    step s = .fault (.notHeld (s.bases.cs + s.pc))

/-- R162, D1: a step at a byte that is neither F5 nor a prefix is refused, neither executed nor #UD. -/
def Obligations.StepRefusesUnshownOpcodes : Prop :=
  ∀ (s : State) (b : Byte), b ≠ 0xF5 → Prefix.ofByte b = none → s.codeAt s.pc.toNat [b] →
    step s = .refused (.opcodeNotShown b)

/-- R184: no step raises an exception of Table 17-6, whatever memory holds (that CMC raises none is GK5,
log 27). -/
def Obligations.NoStepRaisesAnException : Prop :=
  ∀ (s : State) (x : ExceptionName) (n : Nat) (c : Option Nat), step s ≠ .fault (.exception x n c)

/-- R171, R6, D12, R57: a step changes nothing but the carry flag and the program counter: every register,
selector, base, mode and launch field, descriptor table register and byte of memory is unchanged. -/
def Obligations.StepChangesOnlyCarryAndPc : Prop :=
  ∀ s t : State, step s = .next t →
    t.gprs = s.gprs ∧ t.selectors = s.selectors ∧ t.bases = s.bases ∧ t.mode = s.mode ∧
    t.dBit = s.dBit ∧ t.bBit = s.bBit ∧ t.tssType = s.tssType ∧ t.tssBase = s.tssBase ∧
    t.gdtr = s.gdtr ∧ t.idtr = s.idtr ∧ (∀ a : Nat, t.mem.read a = s.mem.read a) ∧
    t.progStart = s.progStart ∧ t.progLen = s.progLen ∧
    t.admitPrefixedCmc = s.admitPrefixedCmc ∧ t.draws = s.draws ∧ t.cf = !s.cf

/-- R45, R113: a step moves pc forward by 1 to 5 bytes and stays inside the code segment's offset range,
without wrapping. -/
def Obligations.StepMovesPcForwardInRange : Prop :=
  ∀ s t : State, step s = .next t →
    s.pc.toNat < t.pc.toNat ∧ t.pc.toNat ≤ s.pc.toNat + 5 ∧ t.pc.toNat < 2 ^ s.codeSize.bits

/-- The launch conditions hold at reset: the model's reset state (log 5, log 6, log 7) has memory in
canonical form, D = 0 in real mode, and pc in range. -/
def Obligations.ResetSatisfiesTheLaunchConditions : Prop :=
  State.reset.Inv

/-- R101, P4, R45, R84: every step keeps the launch conditions: memory's canonical form, D = 0 unless the
mode is Protected, pc in the code segment's offset range. -/
def Obligations.StepKeepsTheLaunchConditions : Prop :=
  ∀ s t : State, s.Inv → step s = .next t → t.Inv

/-- D12, R101, P4: from any state that meets the launch conditions, every state a run reaches meets them,
with the launch fields, the general registers and memory it was launched with. -/
def Obligations.RunsKeepLaunchFieldsAndConditions : Prop :=
  ∀ s t : State, s.Inv → State.Reaches s t →
    t.Inv ∧ s.sameButCfPc t
end

