-- ==== Sys2Proof/Laws/Bytes.lean ====
section
/-! SUPPORT. Byte order: the bytes of a value and the value of bytes are inverse, and a field of bytes is
taken back whole. -/

namespace Sys2Proof

@[simp] theorem natToLE_length (n v : Nat) : (natToLE n v).length = n := by
  induction n generalizing v with
  | zero => rfl
  | succ n ih => simp [natToLE, ih]

theorem leToNat_natToLE (n v : Nat) : leToNat (natToLE n v) = v % 256 ^ n := by
  induction n generalizing v with
  | zero => simp [natToLE, leToNat, Nat.mod_one]
  | succ n ih =>
    simp only [natToLE, leToNat, ih, BitVec.toNat_ofNat]
    have h : 256 ^ (n + 1) = 256 * 256 ^ n := Nat.pow_succ'
    have h8 : (2 : Nat) ^ 8 = 256 := rfl
    rw [h, h8, Nat.mod_mul (a := 256) (b := 256 ^ n)]

theorem leToNat_lt (bs : List Byte) : leToNat bs < 256 ^ bs.length := by
  induction bs with
  | nil => simp [leToNat]
  | cons b bs ih =>
    have hb := b.isLt
    simp only [leToNat, List.length_cons, Nat.pow_succ']
    omega

theorem natToLE_leToNat (bs : List Byte) : natToLE bs.length (leToNat bs) = bs := by
  induction bs with
  | nil => rfl
  | cons b bs ih =>
    have hb := b.isLt
    have hd : (b.toNat + 256 * leToNat bs) / 256 = leToNat bs := by omega
    simp only [List.length_cons, leToNat, natToLE, hd, ih, List.cons.injEq, and_true]
    apply BitVec.eq_of_toNat_eq
    simp only [BitVec.toNat_ofNat]
    omega

@[simp] theorem toLE_length (n : Nat) (v : BitVec (8 * n)) : (toLE n v).length = n := by
  simp [toLE]

theorem pow_256_eq (n : Nat) : 256 ^ n = 2 ^ (8 * n) := by
  rw [Nat.pow_mul]

@[simp] theorem ofLE_toLE (n : Nat) (v : BitVec (8 * n)) : ofLE n (toLE n v) = v := by
  apply BitVec.eq_of_toNat_eq
  simp only [ofLE, toLE, BitVec.toNat_ofNat, leToNat_natToLE, pow_256_eq, Nat.mod_mod]
  exact Nat.mod_eq_of_lt v.isLt

theorem toLE_ofLE (n : Nat) (bs : List Byte) (h : bs.length = n) : toLE n (ofLE n bs) = bs := by
  subst h
  have hlt := leToNat_lt bs
  rw [pow_256_eq] at hlt
  simp only [toLE, ofLE, BitVec.toNat_ofNat, Nat.mod_eq_of_lt hlt, natToLE_leToNat]

/-- A trailing field holds the value whose bytes it is. -/
theorem ParsedForm.trailValue_of_trail {p : ParsedForm} {n : Nat} {v : BitVec (8 * n)}
    (h : p.trail = toLE n v) : p.trailValue n = v := by
  simp [ParsedForm.trailValue, h]

theorem takeBytes_append (bs rest : List Byte) :
    takeBytes bs.length (bs ++ rest) = some (bs, rest) := by
  simp [takeBytes]

theorem takeLE_toLE_append (n : Nat) (v : BitVec (8 * n)) (rest : List Byte) :
    takeLE n (toLE n v ++ rest) = some (v, rest) := by
  have h := takeBytes_append (toLE n v) rest
  rw [toLE_length] at h
  simp [takeLE, h]

/-- What taking a field can do: the bytes taken are the value's own. -/
theorem takeLE_eq_some {n : Nat} {bs rest : List Byte} {v : BitVec (8 * n)}
    (h : takeLE n bs = some (v, rest)) : bs = toLE n v ++ rest := by
  unfold takeLE takeBytes at h
  split at h
  · next hn =>
    simp only [Option.map_some, Option.some.injEq, Prod.mk.injEq] at h
    obtain ⟨rfl, rfl⟩ := h
    rw [toLE_ofLE n _ (by simp [hn]), List.take_append_drop]
  · simp at h

end Sys2Proof
end

