-- ==== Sys2Proof/Laws/Decode.lean ====
section
/-! SUPPORT. The decoder's parts: a prefix and its byte, a ModR/M byte and its fields, a SIB byte and its
fields, a displacement and its bytes. -/

namespace Sys2Proof

@[simp] theorem Prefix.ofByte_byte (p : Prefix) : Prefix.ofByte p.byte = some p := by
  cases p with
  | segment s => cases s <;> rfl
  | rep => rfl
  | repne => rfl
  | lock => rfl
  | operandSize => rfl
  | addressSize => rfl

theorem Prefix.byte_of_ofByte {b : Byte} {p : Prefix} (h : Prefix.ofByte b = some p) : p.byte = b := by
  have key : ∀ b : Byte, (Prefix.ofByte b).all (fun p => p.byte == b) = true := by decide
  simpa [h] using key b

@[simp] theorem ModRM.ofByte_toByte (m : ModRM) : ModRM.ofByte m.toByte = m := by
  obtain ⟨mod, reg, rm⟩ := m
  revert mod reg rm
  decide

@[simp] theorem ModRM.toByte_ofByte (b : Byte) : (ModRM.ofByte b).toByte = b := by
  revert b
  decide

@[simp] theorem SIB.ofByte_toByte (s : SIB) : SIB.ofByte s.toByte = s := by
  obtain ⟨ss, index, base⟩ := s
  revert ss index base
  decide

@[simp] theorem SIB.toByte_ofByte (b : Byte) : (SIB.ofByte b).toByte = b := by
  revert b
  decide

@[simp] theorem Base16.ofCode_code (b : Base16) : Base16.ofCode b.code = b := by cases b <;> rfl

theorem indexOfCode_indexCode {i : Option Reg32} (h : indexOk i = true) :
    indexOfCode (indexCode i) = i := by
  cases i with
  | none => rfl
  | some r => cases r <;> first | rfl | simp [indexOk] at h

theorem readDisp16_encode (d : Disp16) (rest : List Byte) :
    readDisp16 d.mod (d.encode ++ rest) = some (d, rest) := by
  cases d with
  | none => rfl
  | disp8 d => simp [readDisp16, Disp16.mod, Disp16.encode, takeLE_toLE_append 1 d rest]
  | disp16 d => simp [readDisp16, Disp16.mod, Disp16.encode, takeLE_toLE_append 2 d rest]

theorem readDisp32_encode (d : Disp32) (rest : List Byte) :
    readDisp32 d.mod (d.encode ++ rest) = some (d, rest) := by
  cases d with
  | none => rfl
  | disp8 d => simp [readDisp32, Disp32.mod, Disp32.encode, takeLE_toLE_append 1 d rest]
  | disp32 d => simp [readDisp32, Disp32.mod, Disp32.encode, takeLE_toLE_append 4 d rest]

end Sys2Proof
end

