-- ==== Sys2Proof/Laws/State.lean ====
section
/-! SUPPORT. One lemma for each field of State and each of its updates. -/

namespace Sys2Proof.Machine

@[simp] theorem State.setMem_gprs (s : State) (m : Memory) : (s.setMem m).gprs = s.gprs := rfl
@[simp] theorem State.setMem_selectors (s : State) (m : Memory) : (s.setMem m).selectors = s.selectors := rfl
@[simp] theorem State.setMem_bases (s : State) (m : Memory) : (s.setMem m).bases = s.bases := rfl
@[simp] theorem State.setMem_pc (s : State) (m : Memory) : (s.setMem m).pc = s.pc := rfl
@[simp] theorem State.setMem_cf (s : State) (m : Memory) : (s.setMem m).cf = s.cf := rfl
@[simp] theorem State.setMem_mode (s : State) (m : Memory) : (s.setMem m).mode = s.mode := rfl
@[simp] theorem State.setMem_dBit (s : State) (m : Memory) : (s.setMem m).dBit = s.dBit := rfl
@[simp] theorem State.setMem_bBit (s : State) (m : Memory) : (s.setMem m).bBit = s.bBit := rfl
@[simp] theorem State.setMem_tssType (s : State) (m : Memory) : (s.setMem m).tssType = s.tssType := rfl
@[simp] theorem State.setMem_tssBase (s : State) (m : Memory) : (s.setMem m).tssBase = s.tssBase := rfl
@[simp] theorem State.setMem_gdtr (s : State) (m : Memory) : (s.setMem m).gdtr = s.gdtr := rfl
@[simp] theorem State.setMem_idtr (s : State) (m : Memory) : (s.setMem m).idtr = s.idtr := rfl
@[simp] theorem State.setMem_mem (s : State) (m : Memory) : (s.setMem m).mem = m := rfl
@[simp] theorem State.setMem_progStart (s : State) (m : Memory) : (s.setMem m).progStart = s.progStart := rfl
@[simp] theorem State.setMem_progLen (s : State) (m : Memory) : (s.setMem m).progLen = s.progLen := rfl
@[simp] theorem State.setMem_admitPrefixedCmc (s : State) (m : Memory) : (s.setMem m).admitPrefixedCmc = s.admitPrefixedCmc := rfl
@[simp] theorem State.setMem_draws (s : State) (m : Memory) : (s.setMem m).draws = s.draws := rfl

@[simp] theorem State.setGprs_gprs (s : State) (g : Gprs) : (s.setGprs g).gprs = g := rfl
@[simp] theorem State.setGprs_selectors (s : State) (g : Gprs) : (s.setGprs g).selectors = s.selectors := rfl
@[simp] theorem State.setGprs_bases (s : State) (g : Gprs) : (s.setGprs g).bases = s.bases := rfl
@[simp] theorem State.setGprs_pc (s : State) (g : Gprs) : (s.setGprs g).pc = s.pc := rfl
@[simp] theorem State.setGprs_cf (s : State) (g : Gprs) : (s.setGprs g).cf = s.cf := rfl
@[simp] theorem State.setGprs_mode (s : State) (g : Gprs) : (s.setGprs g).mode = s.mode := rfl
@[simp] theorem State.setGprs_dBit (s : State) (g : Gprs) : (s.setGprs g).dBit = s.dBit := rfl
@[simp] theorem State.setGprs_bBit (s : State) (g : Gprs) : (s.setGprs g).bBit = s.bBit := rfl
@[simp] theorem State.setGprs_tssType (s : State) (g : Gprs) : (s.setGprs g).tssType = s.tssType := rfl
@[simp] theorem State.setGprs_tssBase (s : State) (g : Gprs) : (s.setGprs g).tssBase = s.tssBase := rfl
@[simp] theorem State.setGprs_gdtr (s : State) (g : Gprs) : (s.setGprs g).gdtr = s.gdtr := rfl
@[simp] theorem State.setGprs_idtr (s : State) (g : Gprs) : (s.setGprs g).idtr = s.idtr := rfl
@[simp] theorem State.setGprs_mem (s : State) (g : Gprs) : (s.setGprs g).mem = s.mem := rfl
@[simp] theorem State.setGprs_progStart (s : State) (g : Gprs) : (s.setGprs g).progStart = s.progStart := rfl
@[simp] theorem State.setGprs_progLen (s : State) (g : Gprs) : (s.setGprs g).progLen = s.progLen := rfl
@[simp] theorem State.setGprs_admitPrefixedCmc (s : State) (g : Gprs) : (s.setGprs g).admitPrefixedCmc = s.admitPrefixedCmc := rfl
@[simp] theorem State.setGprs_draws (s : State) (g : Gprs) : (s.setGprs g).draws = s.draws := rfl

@[simp] theorem State.setPc_gprs (s : State) (v : Word32) : (s.setPc v).gprs = s.gprs := rfl
@[simp] theorem State.setPc_selectors (s : State) (v : Word32) : (s.setPc v).selectors = s.selectors := rfl
@[simp] theorem State.setPc_bases (s : State) (v : Word32) : (s.setPc v).bases = s.bases := rfl
@[simp] theorem State.setPc_pc (s : State) (v : Word32) : (s.setPc v).pc = v := rfl
@[simp] theorem State.setPc_cf (s : State) (v : Word32) : (s.setPc v).cf = s.cf := rfl
@[simp] theorem State.setPc_mode (s : State) (v : Word32) : (s.setPc v).mode = s.mode := rfl
@[simp] theorem State.setPc_dBit (s : State) (v : Word32) : (s.setPc v).dBit = s.dBit := rfl
@[simp] theorem State.setPc_bBit (s : State) (v : Word32) : (s.setPc v).bBit = s.bBit := rfl
@[simp] theorem State.setPc_tssType (s : State) (v : Word32) : (s.setPc v).tssType = s.tssType := rfl
@[simp] theorem State.setPc_tssBase (s : State) (v : Word32) : (s.setPc v).tssBase = s.tssBase := rfl
@[simp] theorem State.setPc_gdtr (s : State) (v : Word32) : (s.setPc v).gdtr = s.gdtr := rfl
@[simp] theorem State.setPc_idtr (s : State) (v : Word32) : (s.setPc v).idtr = s.idtr := rfl
@[simp] theorem State.setPc_mem (s : State) (v : Word32) : (s.setPc v).mem = s.mem := rfl
@[simp] theorem State.setPc_progStart (s : State) (v : Word32) : (s.setPc v).progStart = s.progStart := rfl
@[simp] theorem State.setPc_progLen (s : State) (v : Word32) : (s.setPc v).progLen = s.progLen := rfl
@[simp] theorem State.setPc_admitPrefixedCmc (s : State) (v : Word32) : (s.setPc v).admitPrefixedCmc = s.admitPrefixedCmc := rfl
@[simp] theorem State.setPc_draws (s : State) (v : Word32) : (s.setPc v).draws = s.draws := rfl

@[simp] theorem State.setCf_gprs (s : State) (b : Bool) : (s.setCf b).gprs = s.gprs := rfl
@[simp] theorem State.setCf_selectors (s : State) (b : Bool) : (s.setCf b).selectors = s.selectors := rfl
@[simp] theorem State.setCf_bases (s : State) (b : Bool) : (s.setCf b).bases = s.bases := rfl
@[simp] theorem State.setCf_pc (s : State) (b : Bool) : (s.setCf b).pc = s.pc := rfl
@[simp] theorem State.setCf_cf (s : State) (b : Bool) : (s.setCf b).cf = b := rfl
@[simp] theorem State.setCf_mode (s : State) (b : Bool) : (s.setCf b).mode = s.mode := rfl
@[simp] theorem State.setCf_dBit (s : State) (b : Bool) : (s.setCf b).dBit = s.dBit := rfl
@[simp] theorem State.setCf_bBit (s : State) (b : Bool) : (s.setCf b).bBit = s.bBit := rfl
@[simp] theorem State.setCf_tssType (s : State) (b : Bool) : (s.setCf b).tssType = s.tssType := rfl
@[simp] theorem State.setCf_tssBase (s : State) (b : Bool) : (s.setCf b).tssBase = s.tssBase := rfl
@[simp] theorem State.setCf_gdtr (s : State) (b : Bool) : (s.setCf b).gdtr = s.gdtr := rfl
@[simp] theorem State.setCf_idtr (s : State) (b : Bool) : (s.setCf b).idtr = s.idtr := rfl
@[simp] theorem State.setCf_mem (s : State) (b : Bool) : (s.setCf b).mem = s.mem := rfl
@[simp] theorem State.setCf_progStart (s : State) (b : Bool) : (s.setCf b).progStart = s.progStart := rfl
@[simp] theorem State.setCf_progLen (s : State) (b : Bool) : (s.setCf b).progLen = s.progLen := rfl
@[simp] theorem State.setCf_admitPrefixedCmc (s : State) (b : Bool) : (s.setCf b).admitPrefixedCmc = s.admitPrefixedCmc := rfl
@[simp] theorem State.setCf_draws (s : State) (b : Bool) : (s.setCf b).draws = s.draws := rfl

@[simp] theorem State.setGdtr_gprs (s : State) (r : TableReg) : (s.setGdtr r).gprs = s.gprs := rfl
@[simp] theorem State.setGdtr_selectors (s : State) (r : TableReg) : (s.setGdtr r).selectors = s.selectors := rfl
@[simp] theorem State.setGdtr_bases (s : State) (r : TableReg) : (s.setGdtr r).bases = s.bases := rfl
@[simp] theorem State.setGdtr_pc (s : State) (r : TableReg) : (s.setGdtr r).pc = s.pc := rfl
@[simp] theorem State.setGdtr_cf (s : State) (r : TableReg) : (s.setGdtr r).cf = s.cf := rfl
@[simp] theorem State.setGdtr_mode (s : State) (r : TableReg) : (s.setGdtr r).mode = s.mode := rfl
@[simp] theorem State.setGdtr_dBit (s : State) (r : TableReg) : (s.setGdtr r).dBit = s.dBit := rfl
@[simp] theorem State.setGdtr_bBit (s : State) (r : TableReg) : (s.setGdtr r).bBit = s.bBit := rfl
@[simp] theorem State.setGdtr_tssType (s : State) (r : TableReg) : (s.setGdtr r).tssType = s.tssType := rfl
@[simp] theorem State.setGdtr_tssBase (s : State) (r : TableReg) : (s.setGdtr r).tssBase = s.tssBase := rfl
@[simp] theorem State.setGdtr_gdtr (s : State) (r : TableReg) : (s.setGdtr r).gdtr = r := rfl
@[simp] theorem State.setGdtr_idtr (s : State) (r : TableReg) : (s.setGdtr r).idtr = s.idtr := rfl
@[simp] theorem State.setGdtr_mem (s : State) (r : TableReg) : (s.setGdtr r).mem = s.mem := rfl
@[simp] theorem State.setGdtr_progStart (s : State) (r : TableReg) : (s.setGdtr r).progStart = s.progStart := rfl
@[simp] theorem State.setGdtr_progLen (s : State) (r : TableReg) : (s.setGdtr r).progLen = s.progLen := rfl
@[simp] theorem State.setGdtr_admitPrefixedCmc (s : State) (r : TableReg) : (s.setGdtr r).admitPrefixedCmc = s.admitPrefixedCmc := rfl
@[simp] theorem State.setGdtr_draws (s : State) (r : TableReg) : (s.setGdtr r).draws = s.draws := rfl

@[simp] theorem State.setIdtr_gprs (s : State) (r : TableReg) : (s.setIdtr r).gprs = s.gprs := rfl
@[simp] theorem State.setIdtr_selectors (s : State) (r : TableReg) : (s.setIdtr r).selectors = s.selectors := rfl
@[simp] theorem State.setIdtr_bases (s : State) (r : TableReg) : (s.setIdtr r).bases = s.bases := rfl
@[simp] theorem State.setIdtr_pc (s : State) (r : TableReg) : (s.setIdtr r).pc = s.pc := rfl
@[simp] theorem State.setIdtr_cf (s : State) (r : TableReg) : (s.setIdtr r).cf = s.cf := rfl
@[simp] theorem State.setIdtr_mode (s : State) (r : TableReg) : (s.setIdtr r).mode = s.mode := rfl
@[simp] theorem State.setIdtr_dBit (s : State) (r : TableReg) : (s.setIdtr r).dBit = s.dBit := rfl
@[simp] theorem State.setIdtr_bBit (s : State) (r : TableReg) : (s.setIdtr r).bBit = s.bBit := rfl
@[simp] theorem State.setIdtr_tssType (s : State) (r : TableReg) : (s.setIdtr r).tssType = s.tssType := rfl
@[simp] theorem State.setIdtr_tssBase (s : State) (r : TableReg) : (s.setIdtr r).tssBase = s.tssBase := rfl
@[simp] theorem State.setIdtr_gdtr (s : State) (r : TableReg) : (s.setIdtr r).gdtr = s.gdtr := rfl
@[simp] theorem State.setIdtr_idtr (s : State) (r : TableReg) : (s.setIdtr r).idtr = r := rfl
@[simp] theorem State.setIdtr_mem (s : State) (r : TableReg) : (s.setIdtr r).mem = s.mem := rfl
@[simp] theorem State.setIdtr_progStart (s : State) (r : TableReg) : (s.setIdtr r).progStart = s.progStart := rfl
@[simp] theorem State.setIdtr_progLen (s : State) (r : TableReg) : (s.setIdtr r).progLen = s.progLen := rfl
@[simp] theorem State.setIdtr_admitPrefixedCmc (s : State) (r : TableReg) : (s.setIdtr r).admitPrefixedCmc = s.admitPrefixedCmc := rfl
@[simp] theorem State.setIdtr_draws (s : State) (r : TableReg) : (s.setIdtr r).draws = s.draws := rfl

@[simp] theorem State.drawn_gprs (s : State) : s.drawn.gprs = s.gprs := rfl
@[simp] theorem State.drawn_selectors (s : State) : s.drawn.selectors = s.selectors := rfl
@[simp] theorem State.drawn_bases (s : State) : s.drawn.bases = s.bases := rfl
@[simp] theorem State.drawn_pc (s : State) : s.drawn.pc = s.pc := rfl
@[simp] theorem State.drawn_cf (s : State) : s.drawn.cf = s.cf := rfl
@[simp] theorem State.drawn_mode (s : State) : s.drawn.mode = s.mode := rfl
@[simp] theorem State.drawn_dBit (s : State) : s.drawn.dBit = s.dBit := rfl
@[simp] theorem State.drawn_bBit (s : State) : s.drawn.bBit = s.bBit := rfl
@[simp] theorem State.drawn_tssType (s : State) : s.drawn.tssType = s.tssType := rfl
@[simp] theorem State.drawn_tssBase (s : State) : s.drawn.tssBase = s.tssBase := rfl
@[simp] theorem State.drawn_gdtr (s : State) : s.drawn.gdtr = s.gdtr := rfl
@[simp] theorem State.drawn_idtr (s : State) : s.drawn.idtr = s.idtr := rfl
@[simp] theorem State.drawn_mem (s : State) : s.drawn.mem = s.mem := rfl
@[simp] theorem State.drawn_progStart (s : State) : s.drawn.progStart = s.progStart := rfl
@[simp] theorem State.drawn_progLen (s : State) : s.drawn.progLen = s.progLen := rfl
@[simp] theorem State.drawn_admitPrefixedCmc (s : State) : s.drawn.admitPrefixedCmc = s.admitPrefixedCmc := rfl
@[simp] theorem State.drawn_draws (s : State) : s.drawn.draws = s.draws + 1 := rfl

@[simp] theorem State.moveStackPtr_selectors (s : State) (d : Word32) : (s.moveStackPtr d).selectors = s.selectors := by
  unfold State.moveStackPtr; split <;> rfl
@[simp] theorem State.moveStackPtr_bases (s : State) (d : Word32) : (s.moveStackPtr d).bases = s.bases := by
  unfold State.moveStackPtr; split <;> rfl
@[simp] theorem State.moveStackPtr_pc (s : State) (d : Word32) : (s.moveStackPtr d).pc = s.pc := by
  unfold State.moveStackPtr; split <;> rfl
@[simp] theorem State.moveStackPtr_cf (s : State) (d : Word32) : (s.moveStackPtr d).cf = s.cf := by
  unfold State.moveStackPtr; split <;> rfl
@[simp] theorem State.moveStackPtr_mode (s : State) (d : Word32) : (s.moveStackPtr d).mode = s.mode := by
  unfold State.moveStackPtr; split <;> rfl
@[simp] theorem State.moveStackPtr_dBit (s : State) (d : Word32) : (s.moveStackPtr d).dBit = s.dBit := by
  unfold State.moveStackPtr; split <;> rfl
@[simp] theorem State.moveStackPtr_bBit (s : State) (d : Word32) : (s.moveStackPtr d).bBit = s.bBit := by
  unfold State.moveStackPtr; split <;> rfl
@[simp] theorem State.moveStackPtr_tssType (s : State) (d : Word32) : (s.moveStackPtr d).tssType = s.tssType := by
  unfold State.moveStackPtr; split <;> rfl
@[simp] theorem State.moveStackPtr_tssBase (s : State) (d : Word32) : (s.moveStackPtr d).tssBase = s.tssBase := by
  unfold State.moveStackPtr; split <;> rfl
@[simp] theorem State.moveStackPtr_gdtr (s : State) (d : Word32) : (s.moveStackPtr d).gdtr = s.gdtr := by
  unfold State.moveStackPtr; split <;> rfl
@[simp] theorem State.moveStackPtr_idtr (s : State) (d : Word32) : (s.moveStackPtr d).idtr = s.idtr := by
  unfold State.moveStackPtr; split <;> rfl
@[simp] theorem State.moveStackPtr_mem (s : State) (d : Word32) : (s.moveStackPtr d).mem = s.mem := by
  unfold State.moveStackPtr; split <;> rfl
@[simp] theorem State.moveStackPtr_progStart (s : State) (d : Word32) : (s.moveStackPtr d).progStart = s.progStart := by
  unfold State.moveStackPtr; split <;> rfl
@[simp] theorem State.moveStackPtr_progLen (s : State) (d : Word32) : (s.moveStackPtr d).progLen = s.progLen := by
  unfold State.moveStackPtr; split <;> rfl
@[simp] theorem State.moveStackPtr_admitPrefixedCmc (s : State) (d : Word32) : (s.moveStackPtr d).admitPrefixedCmc = s.admitPrefixedCmc := by
  unfold State.moveStackPtr; split <;> rfl
@[simp] theorem State.moveStackPtr_draws (s : State) (d : Word32) : (s.moveStackPtr d).draws = s.draws := by
  unfold State.moveStackPtr; split <;> rfl

@[simp] theorem State.setMem_codeSize (s : State) (m : Memory) : (s.setMem m).codeSize = s.codeSize := rfl
@[simp] theorem State.setMem_linear (s : State) (m : Memory) (seg : Sreg) (off : Word32) :
    (s.setMem m).linear seg off = s.linear seg off := rfl
@[simp] theorem State.setGprs_codeSize (s : State) (g : Gprs) : (s.setGprs g).codeSize = s.codeSize := rfl
@[simp] theorem State.setGprs_linear (s : State) (g : Gprs) (seg : Sreg) (off : Word32) :
    (s.setGprs g).linear seg off = s.linear seg off := rfl
@[simp] theorem State.setPc_codeSize (s : State) (v : Word32) : (s.setPc v).codeSize = s.codeSize := rfl
@[simp] theorem State.setPc_linear (s : State) (v : Word32) (seg : Sreg) (off : Word32) :
    (s.setPc v).linear seg off = s.linear seg off := rfl
@[simp] theorem State.setCf_codeSize (s : State) (b : Bool) : (s.setCf b).codeSize = s.codeSize := rfl
@[simp] theorem State.setCf_linear (s : State) (b : Bool) (seg : Sreg) (off : Word32) :
    (s.setCf b).linear seg off = s.linear seg off := rfl
@[simp] theorem State.setGdtr_codeSize (s : State) (r : TableReg) : (s.setGdtr r).codeSize = s.codeSize := rfl
@[simp] theorem State.setGdtr_linear (s : State) (r : TableReg) (seg : Sreg) (off : Word32) :
    (s.setGdtr r).linear seg off = s.linear seg off := rfl
@[simp] theorem State.setIdtr_codeSize (s : State) (r : TableReg) : (s.setIdtr r).codeSize = s.codeSize := rfl
@[simp] theorem State.setIdtr_linear (s : State) (r : TableReg) (seg : Sreg) (off : Word32) :
    (s.setIdtr r).linear seg off = s.linear seg off := rfl
@[simp] theorem State.drawn_codeSize (s : State) : s.drawn.codeSize = s.codeSize := rfl
@[simp] theorem State.drawn_linear (s : State) (seg : Sreg) (off : Word32) :
    s.drawn.linear seg off = s.linear seg off := rfl

@[simp] theorem State.setCf_setCf (s : State) (b c : Bool) : (s.setCf b).setCf c = s.setCf c := rfl
@[simp] theorem State.setPc_setPc (s : State) (v w : Word32) : (s.setPc v).setPc w = s.setPc w := rfl
theorem State.setPc_setCf (s : State) (b : Bool) (v : Word32) :
    (s.setPc v).setCf b = (s.setCf b).setPc v := rfl
@[simp] theorem State.setCf_self (s : State) : s.setCf s.cf = s := rfl
@[simp] theorem State.setPc_self (s : State) : s.setPc s.pc = s := rfl

end Sys2Proof.Machine
end

