-- ==== Sys2Proof/Laws/Memory.lean ====
section
/-! SUPPORT. Memory: a read after a write, the canonical form kept by every operation, and what the
multi-byte operations can do. -/

namespace Sys2Proof.Machine

@[simp] theorem Memory.read_nil (x : Nat) : Memory.read [] x = none := rfl

theorem Memory.read_cons (a : Nat) (b : Byte) (m : Memory) (x : Nat) :
    Memory.read ((a, b) :: m) x = if a = x then some b else m.read x := rfl

/-- A form that holds from a bound on lists nothing below it. -/
theorem Memory.read_below {m : Memory} {lo x : Nat} (h : m.wfFrom lo = true) (hx : x < lo) :
    m.read x = none := by
  induction m generalizing lo with
  | nil => rfl
  | cons c m ih =>
    obtain ⟨a, b⟩ := c
    simp only [Memory.wfFrom, Bool.and_eq_true, decide_eq_true_eq] at h
    rw [Memory.read_cons, if_neg (by omega)]
    exact ih h.2 (by omega)

theorem Memory.read_put (m : Memory) (x y : Nat) (v : Byte) :
    (m.put x v).read y = if x = y then some v else m.read y := by
  induction m with
  | nil => simp [Memory.put, Memory.read_cons]
  | cons c m ih =>
    obtain ⟨a, b⟩ := c
    unfold Memory.put
    split
    · simp [Memory.read_cons]
    · split
      · next hax =>
        subst hax
        simp only [Memory.read_cons]
        split <;> simp_all
      · next hax =>
        simp only [Memory.read_cons, ih]
        split
        · next h => subst h; rw [if_neg (fun h => hax h.symm)]
        · rfl

@[simp] theorem Memory.read_put_same (m : Memory) (x : Nat) (v : Byte) :
    (m.put x v).read x = some v := by
  simp [Memory.read_put]

theorem Memory.read_put_other (m : Memory) {x y : Nat} (v : Byte) (h : x ≠ y) :
    (m.put x v).read y = m.read y := by
  simp [Memory.read_put, h]

theorem Memory.wfFrom_mono {m : Memory} {lo lo' : Nat} (h : m.wfFrom lo = true) (hl : lo' ≤ lo) :
    m.wfFrom lo' = true := by
  cases m with
  | nil => rfl
  | cons c m =>
    obtain ⟨a, b⟩ := c
    simp only [Memory.wfFrom, Bool.and_eq_true, decide_eq_true_eq] at h ⊢
    exact ⟨⟨by omega, h.1.2⟩, h.2⟩

theorem Memory.wfFrom_put {m : Memory} {lo x : Nat} (v : Byte) (h : m.wfFrom lo = true)
    (hlo : lo ≤ x) (hx : x < 2 ^ 32) : (m.put x v).wfFrom lo = true := by
  induction m generalizing lo with
  | nil => simp [Memory.put, Memory.wfFrom, hlo]; omega
  | cons c m ih =>
    obtain ⟨a, b⟩ := c
    simp only [Memory.wfFrom, Bool.and_eq_true, decide_eq_true_eq] at h
    unfold Memory.put
    split
    · simp only [Memory.wfFrom, Bool.and_eq_true, decide_eq_true_eq]
      exact ⟨⟨hlo, hx⟩, ⟨by omega, h.1.2⟩, h.2⟩
    · split
      · next hax =>
        subst hax
        simp only [Memory.wfFrom, Bool.and_eq_true, decide_eq_true_eq]
        exact h
      · simp only [Memory.wfFrom, Bool.and_eq_true, decide_eq_true_eq]
        exact ⟨h.1, ih h.2 (by omega)⟩

/-- Placing a byte keeps the canonical form. -/
theorem Memory.wf_put {m : Memory} {x : Nat} (v : Byte) (h : m.wf = true) (hx : x < 2 ^ 32) :
    (m.put x v).wf = true :=
  Memory.wfFrom_put v h (Nat.zero_le x) hx

/-- Loading bytes keeps the canonical form. -/
theorem Memory.wf_load (m : Memory) (a : Word32) (bs : List Byte) (h : m.wf = true) :
    (m.load a bs).wf = true := by
  induction bs generalizing m a with
  | nil => exact h
  | cons b bs ih => exact ih _ _ (Memory.wf_put b h a.isLt)

/-- What a store can do: the address was held, and the byte is put there. -/
theorem Memory.store_eq_some {m m' : Memory} {x : Nat} {v : Byte} (h : m.store x v = some m') :
    (m.read x).isSome = true ∧ m' = m.put x v := by
  unfold Memory.store at h
  split at h
  · cases h
  · next hr => cases h; simp [hr]

/-- A store keeps the canonical form. -/
theorem Memory.wf_store {m m' : Memory} {x : Nat} {v : Byte} (h : m.store x v = some m')
    (hm : m.wf = true) (hx : x < 2 ^ 32) : m'.wf = true := by
  obtain ⟨-, rfl⟩ := Memory.store_eq_some h
  exact Memory.wf_put v hm hx

/-- What a multi-byte read can do: it answers the bytes at the consecutive addresses. -/
theorem linReadBytes_eq_ok {m : Memory} {a : Word32} {n : Nat} {bs : List Byte}
    (h : linReadBytes m a n = .ok bs) :
    bs.length = n ∧ ∀ k, k < n → m.read (a + BitVec.ofNat 32 k).toNat = bs[k]? := by
  induction n generalizing a bs with
  | zero =>
    cases h
    exact ⟨rfl, fun k hk => absurd hk (Nat.not_lt_zero k)⟩
  | succ n ih =>
    unfold linReadBytes at h
    split at h
    · cases h
    · next b hb =>
      split at h
      · cases h
      · next bs' hbs =>
        cases h
        obtain ⟨hl, hk⟩ := ih hbs
        refine ⟨by simp [hl], fun k hlt => ?_⟩
        cases k with
        | zero => simpa using hb
        | succ k =>
          have hadd : a + BitVec.ofNat 32 (k + 1) = a + 1 + BitVec.ofNat 32 k := by
            rw [BitVec.add_assoc]
            congr 1
            apply BitVec.eq_of_toNat_eq
            simp
            omega
          rw [hadd, hk k (by omega)]
          rfl

/-- What a multi-byte write can do: it keeps the canonical form and changes no address but those it
stores to. -/
theorem linWriteBytes_wf {g : Word32 → Bool} {m m' : Memory} {a : Word32} {bs : List Byte}
    (h : linWriteBytes g m a bs = .ok m') (hm : m.wf = true) : m'.wf = true := by
  induction bs generalizing m a with
  | nil => cases h; exact hm
  | cons b bs ih =>
    unfold linWriteBytes at h
    split at h
    · cases h
    · split at h
      · cases h
      · next m1 h1 => exact ih h (Memory.wf_store h1 hm a.isLt)

/-- What LinWrite can do: only the memory changes. -/
theorem linWrite_eq_ok {s t : State} {a : Word32} {n : Nat} {v : BitVec (8 * n)}
    (h : linWrite s a n v = .ok t) :
    ∃ m, linWriteBytes s.inProgram s.mem a (toLE n v) = .ok m ∧ t = s.setMem m := by
  unfold linWrite at h
  split at h
  · cases h
  · next m hm => cases h; exact ⟨m, hm, rfl⟩

/-- What LinRead can do: it answers the value of the bytes. -/
theorem linRead_eq_ok {m : Memory} {a : Word32} {n : Nat} {v : BitVec (8 * n)}
    (h : linRead m a n = .ok v) : ∃ bs, linReadBytes m a n = .ok bs ∧ v = ofLE n bs := by
  unfold linRead at h
  split at h
  · cases h
  · next bs hbs => cases h; exact ⟨bs, hbs, rfl⟩

end Sys2Proof.Machine
end

