-- ==== Sys2Proof/Laws/Registers.lean ====
section
/-! SUPPORT. Registers: a read after a write, and the bits a narrow write leaves alone. -/

namespace Sys2Proof.Machine

@[simp] theorem Gprs.get_set (g : Gprs) (r q : Reg32) (v : Word32) :
    (g.set r v).get q = if r = q then v else g.get q := by
  cases r <;> cases q <;> rfl

@[simp] theorem Gprs.set_get (g : Gprs) (r : Reg32) : g.set r (g.get r) = g := by
  cases r <;> rfl

@[simp] theorem Gprs.set_set (g : Gprs) (r : Reg32) (v w : Word32) :
    (g.set r v).set r w = g.set r w := by
  cases r <;> rfl

theorem extract_low_append {n w : Nat} (x : BitVec n) (v : BitVec w) :
    (x ++ v).extractLsb' 0 w = v := by
  ext i hi
  simp [BitVec.getLsbD_append, hi]

theorem extract_high_append {n w : Nat} (x : BitVec n) (v : BitVec w) :
    (x ++ v).extractLsb' w n = x := by
  ext i hi
  simp [BitVec.getLsbD_append, BitVec.getLsbD_eq_getElem hi]

/-- The bits of a doubleword made of two words. -/
theorem getLsbD_append_words (x y : Word16) (k : Nat) :
    BitVec.getLsbD (w := 32) (x ++ y) k = if k < 16 then y.getLsbD k else x.getLsbD (k - 16) :=
  BitVec.getLsbD_append (x := x) (y := y) (i := k)

/-- The bits of a doubleword made of three bytes' room and a byte. -/
theorem getLsbD_append_lowByte (x : BitVec 24) (y : Byte) (k : Nat) :
    BitVec.getLsbD (w := 32) (x ++ y) k = if k < 8 then y.getLsbD k else x.getLsbD (k - 8) :=
  BitVec.getLsbD_append (x := x) (y := y) (i := k)

/-- The bits of a doubleword made of a word and two bytes. -/
theorem getLsbD_append_highByte (x : Word16) (y z : Byte) (k : Nat) :
    BitVec.getLsbD (w := 32) (x ++ y ++ z) k =
      if k < 8 then z.getLsbD k else if k < 16 then y.getLsbD (k - 8) else x.getLsbD (k - 16) := by
  have h := BitVec.getLsbD_append (x := x ++ y) (y := z) (i := k)
  have h' := BitVec.getLsbD_append (x := x) (y := y) (i := k - 8)
  refine h.trans ?_
  rw [h', Nat.sub_sub]
  split
  · rfl
  · split <;> split <;> first | rfl | omega

@[simp] theorem Gprs.get16_set16 (g : Gprs) (r : Reg16) (v : Word16) : (g.set16 r v).get16 r = v := by
  simp only [Gprs.get16, Gprs.set16, Gprs.get_set, if_true]
  exact extract_low_append _ v

/-- A word write keeps bits 31:16 of the wide register (R42). -/
theorem Gprs.get_set16_high (g : Gprs) (r : Reg16) (v : Word16) :
    ((g.set16 r v).get (wideOf16 r)).extractLsb' 16 16 = (g.get (wideOf16 r)).extractLsb' 16 16 := by
  simp only [Gprs.set16, Gprs.get_set, if_true]
  exact extract_high_append _ v

/-- A word write keeps every other doubleword register (R42). -/
theorem Gprs.get_set16_other (g : Gprs) (r : Reg16) (v : Word16) (q : Reg32) (h : wideOf16 r ≠ q) :
    (g.set16 r v).get q = g.get q := by
  simp [Gprs.set16, h]

@[simp] theorem Reg32.ofCode_code (r : Reg32) : Reg32.ofCode r.code = r := by cases r <;> rfl
@[simp] theorem Reg16.ofCode_code (r : Reg16) : Reg16.ofCode r.code = r := by cases r <;> rfl
@[simp] theorem Reg8.ofCode_code (r : Reg8) : Reg8.ofCode r.code = r := by cases r <;> rfl
@[simp] theorem Sreg.ofCode_code (s : Sreg) : Sreg.ofCode s.code = some s := by cases s <;> rfl

end Sys2Proof.Machine
end

