-- ==== Sys2Proof/Laws/Ops.lean ====
section
/-! SUPPORT. What each shared operation can do, said once. -/

namespace Sys2Proof.Machine

/-- What advancing the program counter can do: inside the offset range it adds the length and changes
nothing else. -/
theorem advance_eq_next {len : Nat} {s t : State} (h : advance len s = .next t) :
    s.pc.toNat + len < 2 ^ s.codeSize.bits ∧ t = s.setPc (s.pc + BitVec.ofNat 32 len) := by
  unfold advance at h
  split at h
  · next hlt => cases h; exact ⟨hlt, rfl⟩
  · cases h

theorem advance_inRange {len : Nat} {s : State} (h : s.pc.toNat + len < 2 ^ s.codeSize.bits) :
    advance len s = .next (s.setPc (s.pc + BitVec.ofNat 32 len)) :=
  if_pos h

theorem advance_outOfRange {len : Nat} {s : State} (h : 2 ^ s.codeSize.bits ≤ s.pc.toNat + len) :
    advance len s = .refused .pcBeyondRange :=
  if_neg (Nat.not_lt.mpr h)

theorem complementCf_eq (s : State) : complementCf s = s.setCf (!s.cf) := rfl

theorem memRead_eq_ok {s : State} {seg : Sreg} {aw : SizeAttr} {off : Word32} {n : Nat}
    {v : BitVec (8 * n)} (h : memRead s seg aw off n = .ok v) :
    off.toNat + n ≤ 2 ^ aw.bits ∧ linRead s.mem (s.linear seg off) n = .ok v := by
  unfold memRead at h
  split at h
  · next hf => exact ⟨by simpa [offsetFits] using hf, h⟩
  · cases h

theorem memWrite_eq_ok {s t : State} {seg : Sreg} {aw : SizeAttr} {off : Word32} {n : Nat}
    {v : BitVec (8 * n)} (h : memWrite s seg aw off n v = .ok t) :
    off.toNat + n ≤ 2 ^ aw.bits ∧ linWrite s (s.linear seg off) n v = .ok t := by
  unfold memWrite at h
  split at h
  · next hf => exact ⟨by simpa [offsetFits] using hf, h⟩
  · cases h

/-- An imm16 or imm32 operand is the value whose bytes stand in the trailing field. -/
theorem immOperand_of_trail {sz : SizeAttr} {p : ParsedForm} {v : BitVec sz.bits}
    (h : p.trail = toLE sz.bytes v) : immOperand sz p = v :=
  ParsedForm.trailValue_of_trail h

/-- A rel16 or rel32 operand is the relative target of the value whose bytes stand in the trailing field. -/
theorem relOperand_of_trail {sz : SizeAttr} {p : ParsedForm} {v : BitVec sz.bits} (s : State) (len : Nat)
    (h : p.trail = toLE sz.bytes v) : relOperand sz s len p = relTarget s len v :=
  congrArg (relTarget s len) (ParsedForm.trailValue_of_trail h)

/-- What a push can do: eSP moves down, and the value is written there. -/
theorem push_eq_ok {sz : SizeAttr} {v : BitVec sz.bits} {s t : State} (h : push sz v s = .ok t) :
    memWrite (s.moveStackPtr (-(BitVec.ofNat 32 sz.bytes))) .ss s.stackAddrSize
      (s.moveStackPtr (-(BitVec.ofNat 32 sz.bytes))).stackPtr sz.bytes v = .ok t :=
  h

/-- What a pop can do: the value is read at eSP, and eSP moves up. -/
theorem pop_eq_ok {sz : SizeAttr} {v : BitVec sz.bits} {s t : State} (h : pop sz s = .ok (v, t)) :
    memRead s .ss s.stackAddrSize s.stackPtr sz.bytes = .ok v ∧
      t = s.moveStackPtr (BitVec.ofNat 32 sz.bytes) := by
  unfold pop at h
  split at h
  · cases h
  · next w hw => cases h; exact ⟨hw, rfl⟩

/-- What a fetch can do: the offset is in range and the memory holds the byte. -/
theorem fetchByte_eq_ok {s : State} {off : Nat} {b : Byte} :
    fetchByte s off = .ok b ↔
      off < 2 ^ s.codeSize.bits ∧ s.mem.read (s.linear .cs (BitVec.ofNat 32 off)).toNat = some b := by
  unfold fetchByte
  split
  · split <;> simp_all
  · simp_all

end Sys2Proof.Machine
end

