-- ==== Sys2Proof/Laws/Exec.lean ====
section
/-! SUPPORT. What a meaning and a step can do, said once for all instructions. -/

namespace Sys2Proof.Machine

/-- What a prefixed instruction can do: with no F0, F2 or F3, the opcode F5 and ADMIT_PREFIXED_CMC it
complements the carry flag and passes its bytes. -/
theorem runPrefixed_eq_next {ps : List Prefix} {op : Byte} {s t : State}
    (h : runPrefixed ps op s = .next t) :
    ps.find? isInstructionPrefix = none ∧ op = 0xF5 ∧ s.admitPrefixedCmc = true ∧
      complementCarry (ps.length + 1) s = .next t := by
  unfold runPrefixed at h
  split at h
  · cases h
  · next hf =>
    split at h
    · next ho =>
      split at h
      · next ha => exact ⟨hf, ho, ha, h⟩
      · cases h
    · cases h

/-- What complementing the carry flag over a length can do. -/
theorem complementCarry_eq_next {len : Nat} {s t : State} (h : complementCarry len s = .next t) :
    s.pc.toNat + len < 2 ^ s.codeSize.bits ∧
      t = (s.setCf (!s.cf)).setPc (s.pc + BitVec.ofNat 32 len) :=
  advance_eq_next (s := s.setCf (!s.cf)) h

/-- What any instruction can do: complement the carry flag and pass its own bytes. -/
theorem exec_eq_next {i : Instr} {s t : State} (h : exec i s = .next t) :
    s.pc.toNat + i.length < 2 ^ s.codeSize.bits ∧
      t = (s.setCf (!s.cf)).setPc (s.pc + BitVec.ofNat 32 i.length) := by
  cases i with
  | cmc => exact complementCarry_eq_next h
  | repPrefix more op => exact nomatch h
  | repnePrefix more op => exact nomatch h
  | lockPrefix more op => exact nomatch h
  | csOverride more op => exact complementCarry_eq_next (runPrefixed_eq_next h).2.2.2
  | ssOverride more op => exact complementCarry_eq_next (runPrefixed_eq_next h).2.2.2
  | dsOverride more op => exact complementCarry_eq_next (runPrefixed_eq_next h).2.2.2
  | esOverride more op => exact complementCarry_eq_next (runPrefixed_eq_next h).2.2.2
  | fsOverride more op => exact complementCarry_eq_next (runPrefixed_eq_next h).2.2.2
  | gsOverride more op => exact complementCarry_eq_next (runPrefixed_eq_next h).2.2.2
  | operandSizeOverride more op => exact complementCarry_eq_next (runPrefixed_eq_next h).2.2.2
  | addressSizeOverride more op => exact complementCarry_eq_next (runPrefixed_eq_next h).2.2.2

/-- A stop is no next state. -/
theorem decodeStop_ne_next (e : DecodeError) (o : Option Stop) (t : State) :
    decodeStop e o ≠ .next t := by
  cases e with
  | opcodeNotShown op => simp [decodeStop]
  | repeatedPrefixGroup g => simp [decodeStop]
  | truncated =>
    cases o with
    | none => simp [decodeStop]
    | some stop => cases stop <;> simp [decodeStop, Stop.outcome]

/-- What a step can do: execute the instruction decoded at pc. -/
theorem step_eq_next {s t : State} (h : step s = .next t) :
    ∃ i rest, decode s.fetched.1 = .ok (i, rest) ∧ exec i s = .next t := by
  unfold step at h
  split at h
  · next i rest hd => exact ⟨i, rest, hd, h⟩
  · next e he => exact absurd h (decodeStop_ne_next e _ t)

end Sys2Proof.Machine
end

