-- ==== Sys2Proof/Laws/PerInstr.lean ====
section
/-! SUPPORT. Families of statements about every instruction as syntax: one lemma for each constructor. -/

namespace Sys2Proof.Laws

/-- An instruction's bytes begin with its own row's byte of spec/opcode_table.json and end with its
opcode byte. -/
def encodesItsRow.Statement (i : Instr) : Prop :=
  (encode i).head? = some (match i with
    | .cmc => 0xF5
    | .repPrefix _ _ => 0xF3
    | .repnePrefix _ _ => 0xF2
    | .lockPrefix _ _ => 0xF0
    | .csOverride _ _ => 0x2E
    | .ssOverride _ _ => 0x36
    | .dsOverride _ _ => 0x3E
    | .esOverride _ _ => 0x26
    | .fsOverride _ _ => 0x64
    | .gsOverride _ _ => 0x65
    | .operandSizeOverride _ _ => 0x66
    | .addressSizeOverride _ _ => 0x67) ∧
  (encode i).getLast? = some i.opcodeByte

theorem encodesItsRow.cmc : encodesItsRow.Statement .cmc :=
  ⟨rfl, rfl⟩

theorem encodesItsRow.repPrefix (more : List Prefix) (opcode : Byte) :
    encodesItsRow.Statement (.repPrefix more opcode) :=
  ⟨rfl, by simp [encode, Instr.opcodeByte]⟩

theorem encodesItsRow.repnePrefix (more : List Prefix) (opcode : Byte) :
    encodesItsRow.Statement (.repnePrefix more opcode) :=
  ⟨rfl, by simp [encode, Instr.opcodeByte]⟩

theorem encodesItsRow.lockPrefix (more : List Prefix) (opcode : Byte) :
    encodesItsRow.Statement (.lockPrefix more opcode) :=
  ⟨rfl, by simp [encode, Instr.opcodeByte]⟩

theorem encodesItsRow.csOverride (more : List Prefix) (opcode : Byte) :
    encodesItsRow.Statement (.csOverride more opcode) :=
  ⟨rfl, by simp [encode, Instr.opcodeByte]⟩

theorem encodesItsRow.ssOverride (more : List Prefix) (opcode : Byte) :
    encodesItsRow.Statement (.ssOverride more opcode) :=
  ⟨rfl, by simp [encode, Instr.opcodeByte]⟩

theorem encodesItsRow.dsOverride (more : List Prefix) (opcode : Byte) :
    encodesItsRow.Statement (.dsOverride more opcode) :=
  ⟨rfl, by simp [encode, Instr.opcodeByte]⟩

theorem encodesItsRow.esOverride (more : List Prefix) (opcode : Byte) :
    encodesItsRow.Statement (.esOverride more opcode) :=
  ⟨rfl, by simp [encode, Instr.opcodeByte]⟩

theorem encodesItsRow.fsOverride (more : List Prefix) (opcode : Byte) :
    encodesItsRow.Statement (.fsOverride more opcode) :=
  ⟨rfl, by simp [encode, Instr.opcodeByte]⟩

theorem encodesItsRow.gsOverride (more : List Prefix) (opcode : Byte) :
    encodesItsRow.Statement (.gsOverride more opcode) :=
  ⟨rfl, by simp [encode, Instr.opcodeByte]⟩

theorem encodesItsRow.operandSizeOverride (more : List Prefix) (opcode : Byte) :
    encodesItsRow.Statement (.operandSizeOverride more opcode) :=
  ⟨rfl, by simp [encode, Instr.opcodeByte]⟩

theorem encodesItsRow.addressSizeOverride (more : List Prefix) (opcode : Byte) :
    encodesItsRow.Statement (.addressSizeOverride more opcode) :=
  ⟨rfl, by simp [encode, Instr.opcodeByte]⟩

end Sys2Proof.Laws
end

