-- ==== Sys2Proof/Tests/Slice0.lean ====
section
/-! SUPPORT. Small tests. Expected values are those of spec/95_test_vectors.md (`T<n>`, `V<n>`) or of the
rule named; the words are written out from the spec's encodings. The `test_witness_…` theorems show inputs
that meet the hypotheses of a statement of Certificates/Slice0/Obligations.lean, clause by clause. -/

namespace Sys2Proof.Tests

open Sys2Proof Sys2Proof.Machine

/-! ### Small states and observations -/

/-- Bytes placed in an empty memory. -/
def bytesAt (a : Word32) (bs : List Byte) : Memory := Memory.load [] a bs

/-- A state with SegBase(CS) = 00400000H and these bytes at pc. -/
def codeState (m : Mode) (d admitted : Bool) (pc : Word32) (cf : Bool) (bs : List Byte) : State :=
  { State.reset with
    mode := m, dBit := d, pc := pc, cf := cf, admitPrefixedCmc := admitted
    bases := ⟨0, 0x00400000, 0, 0, 0, 0⟩
    mem := bytesAt (0x00400000 + pc) bs }

/-- A state with SegBase(SS) = 00100000H, this ESP and these bytes at a linear address (T80 to T91). -/
def stackState (b : Bool) (esp a : Word32) (bs : List Byte) : State :=
  { State.reset with
    bBit := b, gprs := { State.reset.gprs with esp := esp }
    bases := ⟨0, 0, 0x00100000, 0x000F0000, 0, 0⟩, mem := bytesAt a bs }

/-- The program counter and the carry flag of a next state. -/
def pcCf : Result → Option (Word32 × Bool)
  | .next t => some (t.pc, t.cf)
  | .fault _ => none
  | .refused _ => none

/-- The state of a next state, with pc and CF put back. -/
def restOf (s : State) : Result → Option State
  | .next t => some ((t.setCf s.cf).setPc s.pc)
  | .fault _ => none
  | .refused _ => none

/-- Why a step stopped. -/
def stopOf : Result → Option Stop
  | .next _ => none
  | .fault f => some (.fault f)
  | .refused r => some (.refusal r)

/-- ESP and memory after an access. -/
def espMem : Access State → Except Stop (Word32 × Memory)
  | .ok t => .ok (t.gprs.esp, t.mem)
  | .error e => .error e

/-- The value and ESP after a pop. -/
def valueEsp {sz : SizeAttr} : Access (BitVec sz.bits × State) → Except Stop (Nat × Word32)
  | .ok (v, t) => .ok (v.toNat, t.gprs.esp)
  | .error e => .error e

/-! ### WellFormed: an ill-formed term for each check -/

theorem test_illFormed_repeatedGroup : (Instr.csOverride [.segment .ds] 0xF5).wellFormed = false := by decide
theorem test_illFormed_repeatedLater :
    (Instr.csOverride [.operandSize, .operandSize] 0xF5).wellFormed = false := by decide
theorem test_illFormed_opcodeIsPrefix : (Instr.csOverride [] 0x66).wellFormed = false := by decide
theorem test_illFormed_bpAlone : (MemForm.based16 .bp .none).wellFormed = false := by decide
theorem test_illFormed_espWithoutSib : (MemForm.based32 .esp (.disp8 0)).wellFormed = false := by decide
theorem test_illFormed_ebpAlone : (MemForm.based32 .ebp .none).wellFormed = false := by decide
theorem test_illFormed_sibIndexEsp : (MemForm.sib 0 (some .esp) .eax .none).wellFormed = false := by decide
theorem test_illFormed_sibBaseEbp : (MemForm.sib 0 none .ebp .none).wellFormed = false := by decide
theorem test_illFormed_sibDirectIndexEsp : (MemForm.sibDirect 0 (some .esp) 0).wellFormed = false := by decide
theorem test_illFormed_rm : (RmForm.mem (.based16 .bp .none)).wellFormed = false := by decide

/-! ### Decoding: one word for each constructor, bit by bit (R109 to R112, R171) -/

theorem test_decode_cmc : decode [0b11110101] = .ok (.cmc, []) := by decide
theorem test_decode_rep : decode [0b11110011, 0b11110101] = .ok (.repPrefix [] 0xF5, []) := by decide
theorem test_decode_repne : decode [0b11110010, 0b11110101] = .ok (.repnePrefix [] 0xF5, []) := by decide
theorem test_decode_lock : decode [0b11110000, 0b11110101] = .ok (.lockPrefix [] 0xF5, []) := by decide
theorem test_decode_cs : decode [0b00101110, 0b11110101] = .ok (.csOverride [] 0xF5, []) := by decide
theorem test_decode_ss : decode [0b00110110, 0b11110101] = .ok (.ssOverride [] 0xF5, []) := by decide
theorem test_decode_ds : decode [0b00111110, 0b11110101] = .ok (.dsOverride [] 0xF5, []) := by decide
theorem test_decode_es : decode [0b00100110, 0b11110101] = .ok (.esOverride [] 0xF5, []) := by decide
theorem test_decode_fs : decode [0b01100100, 0b11110101] = .ok (.fsOverride [] 0xF5, []) := by decide
theorem test_decode_gs : decode [0b01100101, 0b11110101] = .ok (.gsOverride [] 0xF5, []) := by decide
theorem test_decode_operandSize :
    decode [0b01100110, 0b11110101] = .ok (.operandSizeOverride [] 0xF5, []) := by decide
theorem test_decode_addressSize :
    decode [0b01100111, 0b11110101] = .ok (.addressSizeOverride [] 0xF5, []) := by decide

/-- T11's bytes, with what follows left over. -/
theorem test_decode_threePrefixes :
    decode [0x2E, 0x67, 0x66, 0xF5, 0x90] =
      .ok (.csOverride [.addressSize, .operandSize] 0xF5, [0x90]) := by decide

/-- T12, T13: two prefixes of one group. -/
theorem test_decode_repeatedGroups :
    decode [0x66, 0x66, 0xF5] = .error (.repeatedPrefixGroup .operandSize) ∧
    decode [0x2E, 0x3E, 0xF5] = .error (.repeatedPrefixGroup .segmentOverride) ∧
    decode [0xF3, 0xF0, 0xF5] = .error (.repeatedPrefixGroup .instruction) := by decide

/-- T15: 90H and its neighbours of F5 are not shown. -/
theorem test_decode_notShown :
    decode [0x90] = .error (.opcodeNotShown 0x90) ∧ decode [0xF4] = .error (.opcodeNotShown 0xF4) ∧
    decode [0x00] = .error (.opcodeNotShown 0x00) ∧ decode [0xFF] = .error (.opcodeNotShown 0xFF) := by decide

/-! ### Steps -/

/-- T1, T2: CMC complements CF. -/
theorem test_cmc_complements :
    pcCf (step (codeState .realMode false false 0x100 false [0xF5])) = some (0x101, true) ∧
    pcCf (step (codeState .realMode false false 0x100 true [0xF5])) = some (0x101, false) := by decide

/-- T3 to T7: the ends of the offset range. -/
theorem test_cmc_range :
    pcCf (step (codeState .realMode false false 0 false [0xF5])) = some (1, true) ∧
    pcCf (step (codeState .realMode false false 0xFFFE true [0xF5])) = some (0xFFFF, false) ∧
    stopOf (step (codeState .realMode false false 0xFFFF true [0xF5])) = some (.refusal .pcBeyondRange) ∧
    pcCf (step (codeState .protectedMode true false 0xFFFF false [0xF5])) = some (0x10000, true) ∧
    stopOf (step (codeState .protectedMode true false 0xFFFFFFFF false [0xF5])) =
      some (.refusal .pcBeyondRange) := by decide

/-- T8: a fetch that memory does not hold. -/
theorem test_step_stuck :
    stopOf (step (codeState .realMode false false 0x100 false [])) =
      some (.fault (.notHeld 0x00400100)) := by decide

/-- T9, T10, T11: a prefixed CMC, refused or passed over. -/
theorem test_prefixedCmc :
    stopOf (step (codeState .realMode false false 0x10 false [0x66, 0xF5])) =
      some (.refusal .prefixedCmc) ∧
    pcCf (step (codeState .realMode false true 0x10 false [0x66, 0xF5])) = some (0x12, true) ∧
    pcCf (step (codeState .realMode false true 0x10 true [0x2E, 0x67, 0x66, 0xF5])) =
      some (0x14, false) := by decide

/-- T10 for the other prefixes that are admitted. -/
theorem test_prefixedCmc_each :
    [0x2E, 0x36, 0x3E, 0x26, 0x64, 0x65, 0x66, 0x67].map (fun b : Byte =>
      pcCf (step (codeState .virtual8086 false true 0x10 false [b, 0xF5]))) =
    List.replicate 8 (some (0x12, true)) := by decide

/-- T12, T14, T15. -/
theorem test_step_refusals :
    stopOf (step (codeState .realMode false true 0x10 false [0x66, 0x66, 0xF5])) =
      some (.refusal (.repeatedPrefixGroup .operandSize)) ∧
    stopOf (step (codeState .realMode false true 0x10 false [0xF3, 0xF5])) =
      some (.refusal (.instructionPrefix .rep)) ∧
    stopOf (step (codeState .realMode false true 0x10 false [0xF2, 0xF5])) =
      some (.refusal (.instructionPrefix .repne)) ∧
    stopOf (step (codeState .realMode false true 0x10 false [0xF0, 0xF5])) =
      some (.refusal (.instructionPrefix .lock)) ∧
    stopOf (step (codeState .realMode false true 0x10 false [0x66, 0xF0, 0xF5])) =
      some (.refusal (.instructionPrefix .lock)) ∧
    stopOf (step (codeState .realMode false true 0x10 false [0x66, 0x90])) =
      some (.refusal (.opcodeNotShown 0x90)) ∧
    stopOf (step (codeState .realMode false false 0x10 false [0x90])) =
      some (.refusal (.opcodeNotShown 0x90)) := by decide

/-- Log 3: the fetch's stop is reported before the refusal of a prefix already read, and after that of a
second prefix of one group. -/
theorem test_step_fetchStopFirst :
    stopOf (step (codeState .realMode false true 0x10 false [0xF0])) =
      some (.fault (.notHeld 0x00400011)) ∧
    stopOf (step (codeState .realMode false true 0x10 false [0x66, 0x66])) =
      some (.refusal (.repeatedPrefixGroup .operandSize)) := by decide

/-- T16: CMC changes nothing else. -/
theorem test_cmc_frame :
    restOf (codeState .protectedMode true false 0x100 false [0xF5])
      (step (codeState .protectedMode true false 0x100 false [0xF5])) =
    some (codeState .protectedMode true false 0x100 false [0xF5]) := by decide

/-- Reset memory is in canonical form and holds nothing: the first step after reset is stuck at the
family's reset vector (log 4, log 5). -/
theorem test_reset :
    State.reset.mem.wf = true ∧ stopOf (step State.reset) = some (.fault (.notHeld 0xFFFFFFF0)) := by decide

/-- An instruction that the host places is the next one run. -/
theorem test_withFetchWord :
    pcCf (step (State.reset.withFetchWord 8 0xF5)) = some (0xFFF1, true) ∧
    stopOf (step (State.reset.withFetchWord 16 0xF566)) = some (.refusal .prefixedCmc) := by decide

/-! ### Effective addresses (T30 to T57) -/

/-- The registers of T30 to T57. -/
def eaRegs : Gprs :=
  ⟨0x11112222, 0x00000010, 0x80000001, 0x0000F000, 0x00002000, 0x0000FFF0, 0x00001234, 0xFFFF0020⟩

/-- What some bytes address: the result and the number of bytes taken. -/
def eaOf (a : SizeAttr) (bs : List Byte) : Option AddrResult :=
  (readRm a bs).map (addrOfForm eaRegs bs.length)

theorem test_ea16 :
    [[0x00], [0x02], [0x06, 0x34, 0x12], [0x46, 0x00], [0x47, 0xF0], [0x41, 0x80], [0x7E, 0x10],
      [0x80, 0x00, 0x20], [0x82, 0x10, 0x00], [0x83, 0xFF, 0xFF]].map (eaOf .s16) =
    [some (.address ⟨.ds, 0x0234, .s16⟩ 1), some (.address ⟨.ss, 0x1224, .s16⟩ 1),
      some (.address ⟨.ds, 0x1234, .s16⟩ 3), some (.address ⟨.ss, 0xFFF0, .s16⟩ 2),
      some (.address ⟨.ds, 0xEFF0, .s16⟩ 2), some (.address ⟨.ds, 0xEFA0, .s16⟩ 2),
      some (.address ⟨.ss, 0x0000, .s16⟩ 2), some (.address ⟨.ds, 0x2234, .s16⟩ 3),
      some (.address ⟨.ss, 0x1234, .s16⟩ 3), some (.address ⟨.ss, 0x000F, .s16⟩ 3)] := by decide

theorem test_ea32_noSib :
    [[0x00], [0x05, 0x78, 0x56, 0x34, 0x12], [0x45, 0xFC], [0x43, 0x7F],
      [0x87, 0x00, 0x00, 0x01, 0x00]].map (eaOf .s32) =
    [some (.address ⟨.ds, 0x11112222, .s32⟩ 1), some (.address ⟨.ds, 0x12345678, .s32⟩ 5),
      some (.address ⟨.ss, 0x0000FFEC, .s32⟩ 2), some (.address ⟨.ds, 0x0000F07F, .s32⟩ 2),
      some (.address ⟨.ds, 0x00000020, .s32⟩ 5)] := by decide

theorem test_ea32_sib :
    [[0x04, 0x24], [0x04, 0x88], [0x04, 0xD1], [0x04, 0xFA], [0x04, 0x25, 0x00, 0x10, 0x00, 0x00],
      [0x04, 0xAD, 0x00, 0x00, 0x00, 0x80], [0x44, 0x6C, 0x08],
      [0x84, 0x63, 0x00, 0x00, 0x00, 0x01], [0x04, 0xE0], [0x04, 0x2B], [0x04, 0x1C]].map (eaOf .s32) =
    [some (.address ⟨.ss, 0x00002000, .s32⟩ 2), some (.address ⟨.ds, 0x11112262, .s32⟩ 2),
      some (.address ⟨.ds, 0x00000018, .s32⟩ 2), some (.address ⟨.ds, 0x7FF80101, .s32⟩ 2),
      some (.address ⟨.ds, 0x00001000, .s32⟩ 6), some (.address ⟨.ds, 0x8003FFC0, .s32⟩ 6),
      some (.address ⟨.ss, 0x00021FE8, .s32⟩ 3), some (.address ⟨.ds, 0x0100F000, .s32⟩ 6),
      some (.address ⟨.ds, 0x11112222, .s32⟩ 2), some (.address ⟨.ds, 0x0001EFF0, .s32⟩ 2),
      some (.address ⟨.ss, 0x00011000, .s32⟩ 2)] := by decide

/-- T40, T57. -/
theorem test_ea_registers :
    eaOf .s16 [0xC3] = some (.register 3 1) ∧ eaOf .s32 [0xC4] = some (.register 4 1) := by decide

/-! ### Lengths (T60 to T65) -/

/-- One opcode byte, /r, an immediate of the operand size. -/
def lengthForm (sz : SizeAttr) : OpcodeForm :=
  ⟨[], 0x90, false, .slashR, TrailField.immOf sz⟩

theorem test_lengths :
    formLength .s16 (lengthForm .s16) 0 [0x90, 0x06, 0x34, 0x12, 1, 2, 9] = some 6 ∧
    formLength .s16 (lengthForm .s32) 1 [0x90, 0x06, 0x34, 0x12, 1, 2, 3, 4, 9] = some 9 ∧
    formLength .s32 (lengthForm .s16) 1 [0x90, 0x06, 1, 2, 9] = some 5 ∧
    formLength .s32 (lengthForm .s32) 0 [0x90, 0x04, 0x25, 1, 2, 3, 4, 5, 6, 7, 8, 9] = some 11 ∧
    formLength .s16 (lengthForm .s32) 1 [0x90, 0x04, 1, 2, 3, 4, 9] = some 7 ∧
    formLength .s16 (lengthForm .s16) 3 [0x90, 0x80, 1, 2, 3, 4, 9] = some 9 := by decide

/-! ### Sizes, truncation and extension (T20 to T27, T70 to T78) -/

theorem test_sizes :
    operandSize false [.operandSize] = .s32 ∧ addressSize false [.operandSize] = .s16 ∧
    operandSize true [.operandSize, .addressSize] = .s16 ∧
    addressSize false [.operandSize, .addressSize] = .s32 := by decide

theorem test_extensions :
    truncateTo16 (0x12345678 : Word32) = 0x5678 ∧ truncateTo16 (0x0001FFFF : Word32) = 0xFFFF ∧
    (zeroExtendTo .s16 (0xF6 : Byte)).toNat = 0x00F6 ∧
    (signExtendTo .s16 (0xF6 : Byte)).toNat = 0xFFF6 ∧
    (signExtendTo .s32 (0x7F : Byte)).toNat = 0x7F ∧
    (signExtendTo .s32 (0x80 : Byte)).toNat = 0xFFFFFF80 ∧
    (signExtendTo .s32 (0x8000 : Word16)).toNat = 0xFFFF8000 ∧
    (zeroExtendTo .s32 (0x8000 : Word16)).toNat = 0x8000 ∧
    (signExtendTo .s32 (0x80000000 : Word32)).toNat = 0x80000000 := by decide

/-! ### Clocks (V15) -/

theorem test_taskSwitchClocks :
    taskSwitchClocks .tss386 false .tss386 false = some 309 ∧
    taskSwitchClocks .tss386 true .tss286 false = some 231 ∧
    taskSwitchClocks .tss286 true .tss386 false = some 307 := by decide

/-! ### Push and Pop (T80 to T91) -/

theorem test_push16 :
    espMem (push .s16 0xBEEF (stackState false 0x12340100 0x001000FC [0, 0, 0, 0])) =
      .ok (0x123400FE, bytesAt 0x001000FC [0, 0, 0xEF, 0xBE]) ∧
    espMem (push .s32 0xDEADBEEF (stackState false 0x12340100 0x001000FC [0, 0, 0, 0])) =
      .ok (0x123400FC, bytesAt 0x001000FC [0xEF, 0xBE, 0xAD, 0xDE]) ∧
    espMem (push .s16 0xAAAA (stackState false 0x12340000 0x0010FFFE [0, 0])) =
      .ok (0x1234FFFE, bytesAt 0x0010FFFE [0xAA, 0xAA]) ∧
    espMem (push .s16 0xAAAA (stackState false 0x12340001 0x0010FFFE [0, 0])) =
      .error (.refusal .offsetStraddle) := by decide

theorem test_push32 :
    espMem (push .s16 0x1234 (stackState true 0x00010000 0x0010FFFC [0, 0, 0, 0])) =
      .ok (0x0000FFFE, bytesAt 0x0010FFFC [0, 0, 0x34, 0x12]) ∧
    espMem (push .s32 0x01020304 (stackState true 0x00010000 0x0010FFFC [0, 0, 0, 0])) =
      .ok (0x0000FFFC, bytesAt 0x0010FFFC [4, 3, 2, 1]) ∧
    espMem (push .s32 0x01020304 (stackState true 0x00010000 0x00100000 [0])) =
      .error (.fault (.notHeld 0x0010FFFC)) := by decide

theorem test_pop :
    valueEsp (pop .s16 (stackState false 0x123400FE 0x001000FE [0xEF, 0xBE])) =
      .ok (0xBEEF, 0x12340100) ∧
    valueEsp (pop .s32 (stackState false 0x123400FC 0x001000FC [0xEF, 0xBE, 0xAD, 0xDE])) =
      .ok (0xDEADBEEF, 0x12340100) ∧
    valueEsp (pop .s32 (stackState true 0x0000FFFC 0x0010FFFC [4, 3, 2, 1])) =
      .ok (0x01020304, 0x00010000) ∧
    valueEsp (pop .s16 (stackState false 0x1234FFFE 0x0010FFFE [0xAA, 0xAA])) =
      .ok (0xAAAA, 0x12340000) ∧
    valueEsp (pop .s16 (stackState false 0x123400FC 0x001000FC [0xEF, 0xBE, 0xAD, 0xDE])) =
      .ok (0xBEEF, 0x123400FE) := by decide

/-! ### Bit (T100 to T113, V7 to V9) -/

theorem test_bitRegister :
    bitPlace (.register .dword 0) 21 = .ok (.inRegister .eax 21) ∧
    bitPlace (.register .dword 0) 0 = .ok (.inRegister .eax 0) ∧
    bitPlace (.register .dword 0) 31 = .ok (.inRegister .eax 31) ∧
    bitPlace (.register .dword 0) 32 = .error (.refusal .bitOffsetOutOfRange) ∧
    bitPlace (.register .word 0) 0 = .error (.refusal .bitBaseRegister) := by decide

theorem test_bitMemory :
    [13, -11, 0, 7, 8, 31, 32, -1, -8, -9, 2147483647, -2147483648].map
      (bitPlace (.memory 0x20000000)) =
    [.ok (.inMemory 0x20000001 5), .ok (.inMemory 0x1FFFFFFE 5), .ok (.inMemory 0x20000000 0),
      .ok (.inMemory 0x20000000 7), .ok (.inMemory 0x20000001 0), .ok (.inMemory 0x20000003 7),
      .ok (.inMemory 0x20000004 0), .ok (.inMemory 0x1FFFFFFF 7), .ok (.inMemory 0x1FFFFFFF 0),
      .ok (.inMemory 0x1FFFFFFE 7), .ok (.inMemory 0x2FFFFFFF 7), .ok (.inMemory 0x10000000 0)] := by decide

/-! ### I-O-Permission (T120 to T134) -/

/-- The bitmap bytes of T121 to T132 that the rows read. -/
def ioMemory : Memory :=
  [(0x100F, 0x80), (0x1010, 0x01), (0x1011, 0), (0x1020, 0x10), (0x1021, 0), (0x107F, 0), (0x1080, 0)]

theorem test_ioBitmap :
    [(0x3F8, Width.byte), (0x7F, .byte), (0x7E, .byte), (0x7E, .word), (0x7F, .word), (0x7B, .dword),
      (0x7C, .dword), (0x7D, .dword), (0x80, .byte), (0x81, .dword), (0x100, .dword), (0x101, .dword),
      (0x105, .word)].map (fun p => ioBitmapClear ioMemory 0x1000 p.1 p.2) =
    [.ok true, .ok false, .ok true, .ok false, .ok false, .ok true, .ok false, .ok false, .ok false,
      .ok true, .ok true, .ok false, .ok true] := by decide

/-- T133, T134, and the pointer read at [TSS + 66]. -/
theorem test_ioPermission :
    ioPermissionWith .decimal66 .s16 false true
      { State.reset with tssType := .tss286 } 0x80 .byte = .ok false ∧
    ioBitmapClear [(0x100F, 0), (0x1010, 1)] 0x1000 0x7F .word = .ok false ∧
    ioPermissionWith .decimal66 .s16 false true
      { State.reset with mem := [(66, 0), (67, 0x10), (0x100F, 0x80), (0x1010, 1)] } 0x7E .byte =
      .ok true := by decide

/-! ### Linear addresses and byte order (T140 to T146) -/

theorem test_byteOrder :
    toLE 2 0x1234 = [0x34, 0x12] ∧ toLE 4 0x12345678 = [0x78, 0x56, 0x34, 0x12] ∧
    (takeLE 2 [0x34, 0x12, 9]).map (·.1.toNat) = some 0x1234 := by decide

theorem test_linear :
    (stackState false 0 0 []).linear .ds 0xFFFF = 0x000FFFFF ∧
    { State.reset with bases := ⟨0, 0, 0, 0xFFFFFFF0, 0, 0⟩ }.linear .ds 0x20 = 0x10 ∧
    memRead (stackState false 0 0x0010FFFF [1, 2]) .ss .s16 0xFFFF 2 = .error (.refusal .offsetStraddle) ∧
    memRead (stackState false 0 0x00102001 [1, 2]) .ss .s16 0x2001 2 = .ok 0x0201 := by decide

/-- D8: a store into the program is refused. -/
theorem test_storeIntoProgram :
    espMem (linWrite { codeState .realMode false false 0x100 false [0xF5, 0xF5] with
      progStart := 0x100, progLen := 2 } 0x00400101 1 0x90) =
      .error (.refusal (.storeIntoProgram 0x00400101)) := by decide

/-- Narrow writes (R42). -/
theorem test_aliasing :
    (eaRegs.set16 .si 0xBEEF).esi = 0x0000BEEF ∧ (eaRegs.set8 .ah 0x77).eax = 0x11117722 ∧
    (eaRegs.set8 .al 0x77).eax = 0x11112277 ∧ (eaRegs.set16 .di 0x5555).edi = 0xFFFF5555 := by decide

/-! ### Witnesses: decoding and encoding -/

theorem test_witness_DecodeEncodeRoundTrip :
    Instr.cmc.wellFormed = true ∧ (Instr.lockPrefix [] 0x00).wellFormed = true ∧
    (Instr.gsOverride [.lock, .addressSize, .operandSize] 0xFF).wellFormed = true := by decide

theorem test_witness_DecodedBytesEncodeBack :
    decode [0x67, 0x65, 0x0F, 1] = .ok (.addressSizeOverride [.segment .gs] 0x0F, [1]) := by decide

theorem test_witness_PrefixesInAnyOrderOnePerGroup :
    Prefix.ofByte 0x00 = none ∧
    ([.segment .cs, .operandSize, .addressSize, .lock].map Prefix.group).Nodup ∧
    ¬ ([.segment .cs, .operandSize, .segment .gs].map Prefix.group).Nodup := by decide

theorem test_witness_OtherFirstBytesAreNotShown :
    [0x00, 0x25, 0x90, 0xF4, 0xF6, 0xFF].all (fun b : Byte =>
      Prefix.ofByte b == none && b != 0xF5) = true := by decide

theorem test_witness_SegmentOverrideBytes :
    Prefix.ofByte 0x65 = some (.segment .gs) ∧
    .segment .fs ∈ [Prefix.operandSize, .segment .fs] ∧
    (∀ y, .segment y ∈ [Prefix.operandSize, .segment .fs] → y = .fs) ∧
    ∀ y, .segment y ∉ [Prefix.operandSize, .lock] := by
  refine ⟨by decide, by decide, ?_, ?_⟩ <;> intro y <;> cases y <;> decide

theorem test_witness_AddressingFormRoundTrip :
    (RmForm.mem (.sib 3 none .esp .none)).wellFormed = true ∧
    (MemForm.sib 3 none .esp .none).addressSize = .s32 ∧
    (RmForm.mem (.based16 .bp (.disp8 0x80))).wellFormed = true ∧
    (MemForm.based16 .bp (.disp8 0x80)).addressSize = .s16 ∧ (RmForm.reg 7).wellFormed = true := by decide

theorem test_witness_AddressingBytesEncodeBack :
    readRm .s32 [0x44, 0x6C, 0x08, 9] =
      some (0, .mem (.sib 1 (some .ebp) .esp (.disp8 8)), [9]) ∧
    readRm .s16 [0x06, 0x34, 0x12] = some (0, .mem (.direct16 0x1234), []) := by decide

theorem test_witness_BytesAfterModRmFollowTheTable :
    bytesAfterModRM .s32 0x04 (some 0x25) ≤ [0x25, 1, 2, 3, (4 : Byte)].length ∧
    [0x25, 1, 2, (3 : Byte)].length < bytesAfterModRM .s32 0x04 (some 0x25) ∧
    bytesAfterModRM .s16 0xC0 none ≤ ([] : List Byte).length := by decide

theorem test_witness_SibBytePresence :
    (readRm .s32 [0x04, 0x24]).isSome = true ∧ (readRm .s32 [0xC4]).isSome = true ∧
    (readRm .s32 [0x03]).isSome = true ∧ (readRm .s16 [0x04]).isSome = true := by decide

theorem test_witness_OpcodeFormTakesItsFieldsInOrder :
    readForm .s16 ⟨[0x0F], 0x58, true, .none, .ib⟩ [0x0F, 0x5F, 7, 9] =
      some (⟨some 7, none, none, [7]⟩, [9]) ∧
    readForm .s16 ⟨[], 0x80, false, .digit 7, .ib⟩ [0x80, 0x3E, 0x34, 0x12, 7] =
      some (⟨none, none, some (.mem (.direct16 0x1234)), [7]⟩, []) ∧
    readForm .s32 ⟨[], 0x8B, false, .slashR, .none⟩ [0x8B, 0xF8] =
      some (⟨none, some 7, some (.reg 0), []⟩, []) := by decide

/-- The right side of the statement, for the second form above. -/
theorem test_witness_OpcodeFormIsRead :
    [(7 : Byte)].length = TrailField.ib.bytes ∧
    [0x80, 0x3E, 0x34, 0x12, (7 : Byte)] =
      [] ++ 0x80 :: (RmForm.mem (.direct16 0x1234)).encode 7 ++ [7] ++ [] ∧
    (RmForm.mem (.direct16 0x1234)).wellFormed = true ∧ (MemForm.direct16 0x1234).addressSize = .s16 := by
  decide

/-! ### Witnesses: registers, sizes, operands -/

theorem test_witness_UnassignedSegmentCodesRefused :
    6 ≤ (6 : BitVec 3).toNat ∧ 6 ≤ (7 : BitVec 3).toNat ∧ ¬ 6 ≤ (5 : BitVec 3).toNat := by decide

theorem test_witness_NarrowWritesChangeOnlyTheirBits :
    (16 ≤ 16 ∧ .ecx ≠ Reg32.ofCode 0) ∧ ((3 : BitVec 3).toNat < 4 ∧ 8 ≤ 8 ∧ .edi ≠ Reg32.ofCode 3) ∧
    (4 ≤ (4 : BitVec 3).toNat ∧ 4 ≤ (7 : BitVec 3).toNat ∧ 7 < 8 ∧ 16 ≤ 16 ∧
      .esp ≠ Reg32.ofCode (4 - 4)) := by decide

theorem test_witness_DefaultSizesByModeAndDBit :
    let s (m : Mode) (d : Bool) := codeState m d false 0 false []
    ((s .protectedMode false).mode = .protectedMode ∧ (s .protectedMode false).dBit = false) ∧
    ((s .protectedMode true).mode = .protectedMode ∧ (s .protectedMode true).dBit = true) ∧
    (s .realMode false).mode = .realMode ∧ (s .virtual8086 true).mode = .virtual8086 := by decide

theorem test_witness_StackPointerByBBit :
    (stackState false 0x12340100 0 []).bBit = false ∧ (stackState true 0x12340100 0 []).bBit = true := by
  decide

theorem test_witness_Extensions :
    8 ≤ SizeAttr.s16.bits ∧ 16 ≤ SizeAttr.s16.bits ∧ 32 ≤ SizeAttr.s32.bits := by decide

theorem test_witness_ImmediatesAreSigned :
    (7 < 8 ∧ 8 ≤ 8 ∧ 8 < SizeAttr.s16.bits ∧ 31 < SizeAttr.s32.bits) ∧
    (readForm .s16 ⟨[], 0x90, false, .none, .ib⟩ [0x90, 0x80]).map (·.1.trail) = some [0x80] ∧
    (readForm .s16 ⟨[], 0x90, false, .none, .iw⟩ [0x90, 0x34, 0x12]).map (·.1.trail) =
      some [0x34, 0x12] ∧
    (readForm .s32 ⟨[], 0x90, false, .none, .id⟩ [0x90, 1, 2, 3, 4]).map (·.1.trail) =
      some [1, 2, 3, 4] := by decide

/-- T146, and the ends of R151's and R152's ranges. -/
theorem test_immediates :
    (immOperand .s16 ⟨none, none, none, [0x34, 0x12]⟩).toNat = 0x1234 ∧
    immNumber .s16 ⟨none, none, none, [0x00, 0x80]⟩ = -32768 ∧
    immNumber .s16 ⟨none, none, none, [0xFF, 0x7F]⟩ = 32767 ∧
    immNumber .s32 ⟨none, none, none, [0x00, 0x00, 0x00, 0x80]⟩ = -2147483648 ∧
    immNumber .s32 ⟨none, none, none, [0xFF, 0xFF, 0xFF, 0x7F]⟩ = 2147483647 := by decide

/-- R83: DS:SI and ES:DI. -/
theorem test_stringOperands :
    let s := { State.reset with gprs := ⟨0, 0, 0, 0, 0, 0, 0x00011234, 0x00025678⟩ }
    stringSource s ⟨.s16, .s16, none⟩ true = .mem ⟨.ds, 0x1234, .s16⟩ ∧
    stringDest s ⟨.s16, .s16, some .fs⟩ true = .mem ⟨.es, 0x5678, .s16⟩ := by decide

theorem test_witness_DefaultSegmentsOf16BitForms :
    (2 : BitVec 2) ≠ 3 ∧ readMem .s16 0 6 [0x34, 0x12] = some (.direct16 0x1234, []) ∧
    readMem .s16 1 6 [0] = some (.based16 .bp (.disp8 0), []) ∧
    readMem .s16 2 2 [1, 0] = some (.based16 .bpSi (.disp16 1), []) ∧
    readMem .s16 0 7 [] = some (.based16 .bx .none, []) := by decide

theorem test_witness_RelativeTargetFromEndOfInstruction :
    let s := codeState .realMode false false 0x80 false []
    relTarget s 2 (0x7E : BitVec 8) = .ok 0x100 ∧ relTarget s 0 (0x80 : BitVec 8) = .ok 0 ∧
    relTarget s 2 (0x0000FF7D : BitVec 32) = .ok 0xFFFF ∧
    relOperand .s16 s 3 ⟨none, none, none, [0xFD, 0x00]⟩ = .ok 0x180 := by decide

theorem test_witness_TwoPartOperandsInEitherOrder :
    let s := stackState false 0 0x00100010 [1, 2, 3, 4, 5, 6]
    readPairWith .leftFirst s ⟨.ss, 0x10, .s16⟩ 2 4 = .ok (0x0201, 0x06050403) ∧
    readPairWith .rightFirst s ⟨.ss, 0x10, .s16⟩ 2 4 = .ok (0x0605, 0x04030201) := by decide

/-- Six equal bytes are the same operand in both layouts. -/
theorem test_witness_TableRegistersLoadLimitAndBase :
    let s := stackState false 0 0x0010FFFA [0x11, 0x11, 0x11, 0x11, 0x11, 0x11]
    offsetFits .s16 0xFFFA 6 = true ∧
    s.mem.holds (s.linear .ss 0xFFFA) (toLE 2 0x1111 ++ toLE 4 0x11111111) ∧
    s.mem.holds (s.linear .ss 0xFFFA) (toLE 4 0x11111111 ++ toLE 2 0x1111) := by
  unfold Memory.holds; decide

/-! ### Witnesses: memory, the stack, bits, the I/O permission bitmap -/

theorem test_witness_LinearWrite :
    let s := stackState false 0 0xFFFFFFFF [1, 2]
    (2 ≤ 2 ^ 32 ∧ s.writable 0xFFFFFFFF 2) ∧
    espMem (linWrite s 0xFFFFFFFF 2 0x1234) = .ok (0, [(0, 0x12), (0xFFFFFFFF, 0x34)]) := by
  unfold State.writable; decide

theorem test_witness_LinearWriteRefused :
    let s := { stackState false 0 0x10 [1, 2] with progStart := 0x11, progLen := 1 }
    (∀ k, k < 2 → (s.mem.read ((0x10 : Word32) + BitVec.ofNat 32 k).toNat).isSome = true) ∧
    s.inProgram (0x10 + BitVec.ofNat 32 1) = true ∧ s.inProgram 0x10 = false := by decide

theorem test_witness_SegmentReadIsLittleEndian :
    let s := stackState false 0 0x0010FFFE [0x34, 0x12]
    ((0xFFFE : Word32).toNat + 2 ≤ 2 ^ SizeAttr.s16.bits ∧
      s.mem.holds (s.bases.get .ss + 0xFFFE) (toLE 2 0x1234)) ∧
    2 ^ SizeAttr.s16.bits < (0xFFFF : Word32).toNat + 2 := by
  unfold Memory.holds; decide

theorem test_witness_Push16 :
    let s := stackState false 0x12340000 0x0010FFFC [0, 0, 0, 0]
    s.bBit = false ∧
    (0x0000FFFE : Word32) = (s.gprs.get16 .sp - BitVec.ofNat 16 SizeAttr.s16.bytes).setWidth 32 ∧
    (0x0000FFFE : Word32).toNat + SizeAttr.s16.bytes ≤ 2 ^ s.stackAddrSize.bits ∧
    s.writable (s.bases.ss + 0x0000FFFE) SizeAttr.s16.bytes := by
  unfold State.writable; decide

theorem test_witness_Push32 :
    let s := stackState true 0 0x000FFFFC [0, 0, 0, 0]
    s.bBit = true ∧ (0xFFFFFFFC : Word32) = s.gprs.esp - BitVec.ofNat 32 SizeAttr.s32.bytes ∧
    (0xFFFFFFFC : Word32).toNat + SizeAttr.s32.bytes ≤ 2 ^ s.stackAddrSize.bits ∧
    s.writable (s.bases.ss + 0xFFFFFFFC) SizeAttr.s32.bytes := by
  unfold State.writable; decide

theorem test_witness_Pop16 :
    let s := stackState false 0x1234FFFE 0x0010FFFE [0xAA, 0xBB]
    s.bBit = false ∧ s.stackPtr.toNat + SizeAttr.s16.bytes ≤ 2 ^ s.stackAddrSize.bits ∧
    s.mem.holds (s.bases.ss + s.stackPtr) (toLE 2 0xBBAA) := by
  unfold Memory.holds; decide

theorem test_witness_Pop32 :
    let s := stackState true 0xFFFFFFFC 0x000FFFFC [4, 3, 2, 1]
    s.bBit = true ∧ s.stackPtr.toNat + SizeAttr.s32.bytes ≤ 2 ^ s.stackAddrSize.bits ∧
    s.mem.holds (s.bases.ss + s.stackPtr) (toLE 4 0x01020304) := by
  unfold Memory.holds; decide

theorem test_witness_PushThenPop :
    let s := stackState false 0x12340100 0x001000FE [0, 0]
    push .s16 0xBEEF s = .ok { s with
      gprs := { s.gprs with esp := 0x123400FE }, mem := [(0x001000FE, 0xEF), (0x001000FF, 0xBE)] } := by
  decide

theorem test_witness_BitInMemoryByFloorDivision :
    ((0 : Int) ≤ 0 ∧ (0 : Int) < 8 ∧ -(2 ^ 31) ≤ 8 * (-268435456 : Int) + 0) ∧
    ((7 : Int) < 8 ∧ 8 * (268435455 : Int) + 7 < 2 ^ 31) := by decide

theorem test_witness_BitStringIsTheDoubleword :
    0 < 32 ∧ 31 < 32 ∧ (bytesAt 0x2000 [0x00, 0x20, 0x00, 0x00]).holds 0x2000 (toLE 4 0x00002000) := by
  unfold Memory.holds; decide

theorem test_witness_BitInARegister :
    0 ≤ 31 ∧ 31 ≤ 31 ∧ bitPlace (.register .byte 4) 0 = .error (.refusal .bitBaseRegister) ∧
    ((-1 : Int) < 0 ∨ 31 < (-1 : Int)) ∧ ((32 : Int) < 0 ∨ 31 < (32 : Int)) := by decide

theorem test_witness_IoBitmapTestReadsTheAccessBits :
    ioMemory.holds (((0x7F : Word32) >>> 3) + 0x1000) [0x80, 0x01] := by
  unfold Memory.holds; decide

theorem test_witness_IoMapPtr :
    (bytesAt 0x142 [0x10, 0x20, 0x30, 0x40]).holds (0x100 + 66) (toLE 2 0x2010) ∧
    (bytesAt 0x142 [0x10, 0x20, 0x30, 0x40]).holds (0x100 + 66) (toLE 4 0x40302010) ∧
    (bytesAt 0x166 [0x10, 0x20, 0x30, 0x40]).holds (0x100 + 102) (toLE 2 0x2010) ∧
    (bytesAt 0x166 [0x10, 0x20, 0x30, 0x40]).holds (0x100 + 102) (toLE 4 0x40302010) := by
  unfold Memory.holds; decide

theorem test_witness_IoPermissionNeedsTheBitmap :
    { State.reset with tssType := .tss286 }.tssType = .tss286 ∧
    ioMapPtr [(0x142, 0x10), (0x143, 0x20)] 0x100 .decimal66 .s16 false = .ok 0x2010 ∧
    ioMapPtr [(0x166, 0x10), (0x167, 0x20)] 0x100 .hex66 .s16 true = .ok 0x2110 ∧
    ioBitmapClear [(0x111, 0), (0x112, 0)] 0x110 8 .word = .ok true ∧
    ioPermissionWith .hex66 .s32 true true
      { State.reset with
        tssBase := 0x100
        mem := [(0x111, 0), (0x112, 0), (0x166, 0x10), (0x167, 0), (0x168, 0), (0x169, 0)] } 8 .word =
      .ok true := by decide

/-! ### Witnesses: instructions and steps -/

theorem test_witness_CmcComplementsCarry :
    let s (d : Bool) (pc : Word32) := codeState .protectedMode d false pc false []
    (s false 0xFFFE).pc.toNat + 1 < 2 ^ (s false 0xFFFE).codeSize.bits ∧
    2 ^ (s false 0xFFFF).codeSize.bits ≤ (s false 0xFFFF).pc.toNat + 1 ∧
    (s true 0xFFFFFFFE).pc.toNat + 1 < 2 ^ (s true 0xFFFFFFFE).codeSize.bits ∧
    2 ^ (s true 0xFFFFFFFF).codeSize.bits ≤ (s true 0xFFFFFFFF).pc.toNat + 1 := by decide

theorem test_witness_PrefixedCmcRunsWhenAdmitted :
    let s := codeState .realMode false true 0xFFFC false []
    s.admitPrefixedCmc = true ∧
    (∀ p ∈ [Prefix.operandSize], p ≠ .rep ∧ p ≠ .repne ∧ p ≠ .lock) ∧
    s.pc.toNat + ([Prefix.operandSize].length + 2) < 2 ^ s.codeSize.bits := by decide

theorem test_witness_PrefixedCmcStops :
    let i := Instr.csOverride [.operandSize] 0xF5
    let s (a : Bool) := codeState .realMode false a 0xFFFD false []
    i.opcodeByte = 0xF5 ∧ i.prefixes ≠ [] ∧
    (∀ p ∈ i.prefixes, p ≠ .rep ∧ p ≠ .repne ∧ p ≠ .lock) ∧
    (s false).admitPrefixedCmc = false ∧ (s true).admitPrefixedCmc = true ∧
    2 ^ (s true).codeSize.bits ≤ (s true).pc.toNat + i.length := by decide

theorem test_witness_InstructionPrefixesAreRefused :
    .lock ∈ (Instr.csOverride [.operandSize, .lock] 0xF5).prefixes ∧
    .rep ∈ (Instr.repPrefix [] 0xA6).prefixes ∧ .repne ∈ (Instr.repnePrefix [] 0xF5).prefixes := by decide

theorem test_witness_PrefixedUnshownOpcodesAreRefused :
    let i := Instr.operandSizeOverride [.segment .fs] 0x90
    i.opcodeByte ≠ 0xF5 ∧ ∀ p ∈ i.prefixes, p ≠ .rep ∧ p ≠ .repne ∧ p ≠ .lock := by decide

theorem test_witness_CmcIgnoresModeAndSizes :
    let s := codeState .realMode false false 0x100 true []
    let t := codeState .protectedMode true true 0x100 true [0xF5]
    s.cf = t.cf ∧ s.pc = t.pc ∧ s.pc.toNat + 1 < 2 ^ s.codeSize.bits ∧
    t.pc.toNat + 1 < 2 ^ t.codeSize.bits := by decide

theorem test_witness_StepRunsTheDecodedInstruction :
    decode (codeState .realMode false false 0x100 false [0x2E, 0xF5]).fetched.1 =
      .ok (.csOverride [] 0xF5, []) := by decide

/-- The instruction's last byte is the last of the offset range. -/
theorem test_witness_StepRunsTheInstructionInMemory :
    let s := codeState .realMode false true 0xFFFE false [0x66, 0xF5]
    (Instr.operandSizeOverride [] 0xF5).wellFormed = true ∧
    s.codeAt s.pc.toNat (encode (.operandSizeOverride [] 0xF5)) := by
  unfold State.codeAt; decide

theorem test_witness_FetchOfAnUnheldByteIsStuck :
    let s := codeState .protectedMode true false 0xFFFFFFFF false []
    s.pc.toNat < 2 ^ s.codeSize.bits ∧ s.mem.read (s.bases.cs + s.pc).toNat = none := by decide

theorem test_witness_StepRefusesUnshownOpcodes :
    let s := codeState .realMode false false 0xFFFF false [0x90]
    (0x90 : Byte) ≠ 0xF5 ∧ Prefix.ofByte 0x90 = none ∧ s.codeAt s.pc.toNat [0x90] := by
  unfold State.codeAt; decide

/-- The state of the statements about one step and about runs. -/
def runState : State := codeState .realMode false true 0xFFF0 false [0xF5, 0x67, 0x66, 0x65, 0xF5]

theorem test_witness_step :
    step runState = .next { runState with cf := true, pc := 0xFFF1 } := rfl

theorem test_witness_inv : runState.Inv :=
  ⟨by decide, by decide, by decide⟩

theorem test_witness_reaches :
    State.Reaches runState { runState with cf := false, pc := 0xFFF5 } :=
  .tail (.tail (.refl _) test_witness_step) rfl

end Sys2Proof.Tests
end

section
/-! PROOFS. The statements of 00_scope: Truncate, ZeroExtend and SignExtend, Push and Pop, Bit,
I-O-Permission, the Flags Affected convention. First the rules about memory, byte order, registers and
the stack pointer that they rest on. -/

namespace Sys2Proof

theorem SizeAttr.bytes_le (sz : SizeAttr) : sz.bytes ≤ 2 ^ 32 := by
  cases sz <;> decide

/-! ### Bits of little-endian bytes (R70, R74) -/

/-- The low-order byte comes first: it holds bits 7:0, and the later bytes the bits from 8 on. -/
theorem testBit_leToNat_cons (b : Byte) (bs : List Byte) (i : Nat) :
    (leToNat (b :: bs)).testBit i = if i < 8 then b.getLsbD i else (leToNat bs).testBit (i - 8) := by
  have h := Nat.testBit_two_pow_mul_add (leToNat bs) b.isLt i
  rwa [Nat.add_comm] at h

theorem getLsbD_ofLE (n : Nat) (bs : List Byte) (i : Nat) :
    (ofLE n bs).getLsbD i = (decide (i < 8 * n) && (leToNat bs).testBit i) :=
  BitVec.getLsbD_ofNat ..

theorem getLsbD_ofLE_two (b0 b1 : Byte) (i : Nat) :
    (ofLE 2 [b0, b1]).getLsbD i = if i < 8 then b0.getLsbD i else b1.getLsbD (i - 8) := by
  rw [getLsbD_ofLE, testBit_leToNat_cons, testBit_leToNat_cons]
  by_cases h8 : i < 8
  · simp [h8, show i < 16 by omega]
  · by_cases h16 : i < 16
    · simp [h8, h16, show i - 8 < 8 by omega]
    · simp [h8, h16, leToNat, BitVec.getLsbD_of_ge b1 (i - 8) (by omega)]

end Sys2Proof

namespace Sys2Proof.Machine

/-! ### Consecutive linear addresses (R71, log 8) -/

theorem linear_add_succ (a : Word32) (k : Nat) :
    a + BitVec.ofNat 32 (k + 1) = a + 1 + BitVec.ofNat 32 k := by
  rw [Nat.add_comm, BitVec.ofNat_add, BitVec.add_assoc]
  rfl

theorem linear_add_zero (a : Word32) : a + BitVec.ofNat 32 0 = a :=
  BitVec.add_zero a

/-- Addresses less than 2^32 apart differ: a longer write would wrap onto its own first byte. -/
theorem linear_add_ne_self (a : Word32) {k : Nat} (hpos : 0 < k) (hlt : k < 2 ^ 32) :
    (a + BitVec.ofNat 32 k).toNat ≠ a.toNat := by
  simp only [BitVec.toNat_add, BitVec.toNat_ofNat]
  have := a.isLt
  omega

/-! ### Memory that holds some bytes -/

theorem Memory.holds_nil (m : Memory) (a : Word32) : m.holds a [] :=
  fun k hk => absurd hk (Nat.not_lt_zero k)

theorem Memory.holds_cons {m : Memory} {a : Word32} {b : Byte} {bs : List Byte} :
    m.holds a (b :: bs) ↔ m.read a.toNat = some b ∧ m.holds (a + 1) bs := by
  constructor
  · intro h
    refine ⟨?_, fun k hk => ?_⟩
    · have hfirst := h 0 (Nat.succ_pos _)
      rwa [linear_add_zero] at hfirst
    · have hnext := h (k + 1) (Nat.succ_lt_succ hk)
      rwa [linear_add_succ] at hnext
  · rintro ⟨hb, hbs⟩ k hk
    cases k with
    | zero => rw [linear_add_zero]; exact hb
    | succ k => rw [linear_add_succ]; exact hbs k (Nat.lt_of_succ_lt_succ hk)

theorem linReadBytes_of_holds {m : Memory} {a : Word32} {bs : List Byte} (h : m.holds a bs) :
    linReadBytes m a bs.length = .ok bs := by
  induction bs generalizing a with
  | nil => rfl
  | cons b bs ih =>
    obtain ⟨hb, hbs⟩ := Memory.holds_cons.mp h
    simp only [List.length_cons, linReadBytes, hb, ih hbs]

theorem linRead_of_holds_bytes {m : Memory} {a : Word32} {bs : List Byte} (h : m.holds a bs) :
    linRead m a bs.length = .ok (ofLE bs.length bs) := by
  simp [linRead, linReadBytes_of_holds h]

/-- LinRead answers the value whose bytes memory holds (R70). -/
theorem linRead_of_holds {m : Memory} {a : Word32} {n : Nat} {v : BitVec (8 * n)}
    (h : m.holds a (toLE n v)) : linRead m a n = .ok v := by
  have hbytes := linReadBytes_of_holds h
  rw [toLE_length] at hbytes
  simp [linRead, hbytes]

theorem memRead_inRange {s : State} {aw : SizeAttr} {off : Word32} {n : Nat} (seg : Sreg)
    (hfit : off.toNat + n ≤ 2 ^ aw.bits) :
    memRead s seg aw off n = linRead s.mem (s.linear seg off) n :=
  if_pos (by simpa [offsetFits] using hfit)

theorem memWrite_inRange {s : State} {aw : SizeAttr} {off : Word32} {n : Nat} (seg : Sreg)
    (v : BitVec (8 * n)) (hfit : off.toNat + n ≤ 2 ^ aw.bits) :
    memWrite s seg aw off n v = linWrite s (s.linear seg off) n v :=
  if_pos (by simpa [offsetFits] using hfit)

theorem memRead_of_holds {s : State} {seg : Sreg} {aw : SizeAttr} {off : Word32} {n : Nat}
    {v : BitVec (8 * n)} (hfit : off.toNat + n ≤ 2 ^ aw.bits)
    (h : s.mem.holds (s.linear seg off) (toLE n v)) : memRead s seg aw off n = .ok v :=
  (memRead_inRange seg hfit).trans (linRead_of_holds h)

/-! ### What a multi-byte store does (R70, R78, R84, R89) -/

theorem Memory.store_of_held {m : Memory} {x : Nat} {v : Byte} (h : (m.read x).isSome = true) :
    m.store x v = some (m.put x v) := by
  obtain ⟨b, hb⟩ := Option.isSome_iff_exists.mp h
  simp [Memory.store, hb]

theorem Memory.read_put_isSome {m : Memory} {y : Nat} (x : Nat) (v : Byte)
    (h : (m.read y).isSome = true) : ((m.put x v).read y).isSome = true := by
  rw [Memory.read_put]
  split
  · rfl
  · exact h

theorem linWriteBytes_cons_eq_ok {g : Word32 → Bool} {m m' : Memory} {a : Word32} {b : Byte}
    {bs : List Byte} (h : linWriteBytes g m a (b :: bs) = .ok m') :
    linWriteBytes g (m.put a.toNat b) (a + 1) bs = .ok m' := by
  unfold linWriteBytes at h
  split at h
  · cases h
  · split at h
    · cases h
    · next m1 hstore =>
      obtain ⟨-, rfl⟩ := Memory.store_eq_some hstore
      exact h

/-- A store changes no byte but those it stores to. -/
theorem linWriteBytes_frame {g : Word32 → Bool} {m m' : Memory} {a : Word32} {bs : List Byte} {x : Nat}
    (h : linWriteBytes g m a bs = .ok m')
    (hx : ∀ k, k < bs.length → (a + BitVec.ofNat 32 k).toNat ≠ x) : m'.read x = m.read x := by
  induction bs generalizing m a with
  | nil => cases h; rfl
  | cons b bs ih =>
    have hfirst : a.toNat ≠ x := by
      have h0 := hx 0 (Nat.succ_pos _)
      rwa [linear_add_zero] at h0
    have hrest : ∀ k, k < bs.length → (a + 1 + BitVec.ofNat 32 k).toNat ≠ x := fun k hk => by
      rw [← linear_add_succ]
      exact hx (k + 1) (Nat.succ_lt_succ hk)
    rw [ih (linWriteBytes_cons_eq_ok h) hrest, Memory.read_put_other m b hfirst]

/-- After a store memory holds the bytes stored. -/
theorem linWriteBytes_holds {g : Word32 → Bool} {m m' : Memory} {a : Word32} {bs : List Byte}
    (hlen : bs.length ≤ 2 ^ 32) (h : linWriteBytes g m a bs = .ok m') : m'.holds a bs := by
  induction bs generalizing m a with
  | nil => exact Memory.holds_nil m' a
  | cons b bs ih =>
    rw [List.length_cons] at hlen
    have hrest := linWriteBytes_cons_eq_ok h
    have hfirst : m'.read a.toNat = (m.put a.toNat b).read a.toNat :=
      linWriteBytes_frame hrest fun k hk => by
        rw [← linear_add_succ]
        exact linear_add_ne_self a (Nat.succ_pos k) (by omega)
    exact Memory.holds_cons.mpr ⟨by rw [hfirst, Memory.read_put_same], ih (by omega) hrest⟩

/-- A store to held addresses outside the program completes. -/
theorem linWriteBytes_completes {g : Word32 → Bool} {m : Memory} {a : Word32} {bs : List Byte}
    (h : ∀ k, k < bs.length → (m.read (a + BitVec.ofNat 32 k).toNat).isSome = true ∧
      g (a + BitVec.ofNat 32 k) = false) : ∃ m', linWriteBytes g m a bs = .ok m' := by
  induction bs generalizing m a with
  | nil => exact ⟨m, rfl⟩
  | cons b bs ih =>
    obtain ⟨hheld, hout⟩ := h 0 (Nat.succ_pos _)
    rw [linear_add_zero] at hheld hout
    have hrest : ∀ k, k < bs.length →
        ((m.put a.toNat b).read (a + 1 + BitVec.ofNat 32 k).toNat).isSome = true ∧
          g (a + 1 + BitVec.ofNat 32 k) = false := fun k hk => by
      obtain ⟨hk1, hk2⟩ := h (k + 1) (Nat.succ_lt_succ hk)
      rw [linear_add_succ] at hk1 hk2
      exact ⟨Memory.read_put_isSome _ _ hk1, hk2⟩
    simpa [linWriteBytes, hout, Memory.store_of_held hheld] using ih hrest

theorem linWrite_completes {s : State} {a : Word32} {n : Nat} (v : BitVec (8 * n))
    (h : s.writable a n) : ∃ t, linWrite s a n v = .ok t := by
  obtain ⟨m, hm⟩ := linWriteBytes_completes (bs := toLE n v) (g := s.inProgram) (m := s.mem) (a := a)
    (by rw [toLE_length]; exact h)
  exact ⟨s.setMem m, by simp [linWrite, hm]⟩

/-- What LinWrite does where it completes: memory holds the value's bytes, every other byte and every
other field is as before. -/
theorem linWrite_effect {s t : State} {a : Word32} {n : Nat} {v : BitVec (8 * n)} (hn : n ≤ 2 ^ 32)
    (h : linWrite s a n v = .ok t) :
    t = s.setMem t.mem ∧ t.mem.holds a (toLE n v) ∧
      ∀ x : Nat, (∀ k, k < n → (a + BitVec.ofNat 32 k).toNat ≠ x) → t.mem.read x = s.mem.read x := by
  obtain ⟨m, hm, rfl⟩ := linWrite_eq_ok h
  exact ⟨rfl, linWriteBytes_holds (by simpa using hn) hm,
    fun x hx => linWriteBytes_frame hm (by rw [toLE_length]; exact hx)⟩

/-! ### The word part of a register written twice (R42) -/

theorem Gprs.set16_set16 (g : Gprs) (r : Reg16) (v w : Word16) :
    (g.set16 r v).set16 r w = g.set16 r w := by
  have hhigh := Gprs.get_set16_high g r v
  calc (g.set16 r v).set16 r w
      = (g.set16 r v).set (wideOf16 r)
          (((g.set16 r v).get (wideOf16 r)).extractLsb' 16 16 ++ w) := rfl
    _ = g.set16 r w := by rw [hhigh]; exact Gprs.set_set ..

theorem Gprs.set16_get16 (g : Gprs) (r : Reg16) : g.set16 r (g.get16 r) = g := by
  have hsplit : ∀ x : Word32, x.extractLsb' 16 16 ++ x.extractLsb' 0 16 = x := fun x => by
    apply BitVec.eq_of_getLsbD_eq
    intro i hi
    rw [getLsbD_append_words]
    split
    · next hlow => simp [hlow]
    · next hhigh => simp [show i - 16 < 16 by omega, Nat.add_sub_cancel' (Nat.le_of_not_lt hhigh)]
  rw [Gprs.set16, Gprs.get16, hsplit, Gprs.set_get]

/-! ### The stack pointer (R21 to R23, R82, D25) -/

theorem State.stackAddrSize_moveStackPtr (s : State) (d : Word32) :
    (s.moveStackPtr d).stackAddrSize = s.stackAddrSize := by
  simp [State.stackAddrSize]

theorem State.stackAddrSize_setMem (s : State) (m : Memory) :
    (s.setMem m).stackAddrSize = s.stackAddrSize := rfl

theorem State.stackPtr_setMem (s : State) (m : Memory) : (s.setMem m).stackPtr = s.stackPtr := rfl

theorem State.moveStackPtr_setMem (s : State) (m : Memory) (d : Word32) :
    (s.setMem m).moveStackPtr d = (s.moveStackPtr d).setMem m := by
  unfold State.moveStackPtr
  rw [State.stackAddrSize_setMem]
  cases s.stackAddrSize <;> rfl

theorem State.inProgram_moveStackPtr (s : State) (d : Word32) :
    (s.moveStackPtr d).inProgram = s.inProgram := by
  unfold State.moveStackPtr; split <;> rfl

theorem State.writable_moveStackPtr {s : State} {d a : Word32} {n : Nat} :
    (s.moveStackPtr d).writable a n ↔ s.writable a n := by
  simp only [State.writable, State.inProgram_moveStackPtr, State.moveStackPtr_mem]

theorem State.moveStackPtr_eq_setGprs (s : State) (d : Word32) :
    s.moveStackPtr d = s.setGprs (s.moveStackPtr d).gprs := by
  unfold State.moveStackPtr; split <;> rfl

theorem State.moveStackPtr_of_s16 {s : State} (h : s.bBit = false) (d : Word32) :
    s.moveStackPtr d =
      s.setGprs (s.gprs.set16 .sp (s.gprs.get16 .sp + d.setWidth 16)) := by
  simp [State.moveStackPtr, State.stackAddrSize, sizeOfBit, h]

theorem State.moveStackPtr_of_s32 {s : State} (h : s.bBit = true) (d : Word32) :
    s.moveStackPtr d = s.setGprs (s.gprs.set .esp (s.gprs.esp + d)) := by
  simp [State.moveStackPtr, State.stackAddrSize, sizeOfBit, h, Gprs.get]

theorem State.stackPtr_of_s16 {s : State} (h : s.bBit = false) :
    s.stackPtr = (s.gprs.get16 .sp).setWidth 32 := by
  simp [State.stackPtr, State.stackAddrSize, sizeOfBit, h]

theorem State.stackPtr_of_s32 {s : State} (h : s.bBit = true) : s.stackPtr = s.gprs.get .esp := by
  simp [State.stackPtr, State.stackAddrSize, sizeOfBit, h]

theorem State.moveStackPtr_moveStackPtr (s : State) (d e : Word32) :
    (s.moveStackPtr d).moveStackPtr e = s.moveStackPtr (d + e) := by
  cases hB : s.bBit with
  | false =>
    rw [State.moveStackPtr_of_s16 (by simpa using hB), State.moveStackPtr_of_s16 hB,
      State.moveStackPtr_of_s16 hB]
    simp [State.setGprs, Gprs.set16_set16, BitVec.setWidth_add, BitVec.add_assoc]
  | true =>
    rw [State.moveStackPtr_of_s32 (by simpa using hB), State.moveStackPtr_of_s32 hB,
      State.moveStackPtr_of_s32 hB]
    simp [State.setGprs, Gprs.set, BitVec.add_assoc]

theorem State.moveStackPtr_zero (s : State) : s.moveStackPtr 0#32 = s := by
  cases hB : s.bBit with
  | false => simp [State.moveStackPtr_of_s16 hB, Gprs.set16_get16, State.setGprs]
  | true => simp [State.moveStackPtr_of_s32 hB, State.setGprs, Gprs.set]

/-! ### Push and Pop -/

/-- The state of a push before its store: eSP is down by the operand's bytes. -/
def State.pushed (s : State) (sz : SizeAttr) : State :=
  s.moveStackPtr (-(BitVec.ofNat 32 sz.bytes))

theorem push_eq_memWrite (sz : SizeAttr) (v : BitVec sz.bits) (s : State) :
    push sz v s = memWrite (s.pushed sz) .ss s.stackAddrSize (s.pushed sz).stackPtr sz.bytes v := rfl

theorem State.pushed_linear_ss (s : State) (sz : SizeAttr) (off : Word32) :
    (s.pushed sz).linear .ss off = s.bases.ss + off := by
  simp [State.pushed, State.linear, SegBases.get]

theorem push_completes {sz : SizeAttr} (v : BitVec sz.bits) {s : State}
    (hfit : (s.pushed sz).stackPtr.toNat + sz.bytes ≤ 2 ^ s.stackAddrSize.bits)
    (hw : s.writable (s.bases.ss + (s.pushed sz).stackPtr) sz.bytes) : ∃ t, push sz v s = .ok t := by
  rw [push_eq_memWrite, memWrite_inRange .ss v hfit, State.pushed_linear_ss]
  exact linWrite_completes v (State.writable_moveStackPtr.mpr hw)

/-- What a push does where it completes: the state is the one with eSP moved, but for its memory, which
holds the value at the new eSP in SS and is unchanged elsewhere (R21). -/
theorem push_effect {sz : SizeAttr} {v : BitVec sz.bits} {s t : State} (h : push sz v s = .ok t) :
    (s.pushed sz).stackPtr.toNat + sz.bytes ≤ 2 ^ s.stackAddrSize.bits ∧
      t = (s.pushed sz).setMem t.mem ∧
      t.mem.holds (s.bases.ss + (s.pushed sz).stackPtr) (toLE sz.bytes v) ∧
      ∀ x : Nat,
        (∀ k, k < sz.bytes →
          (s.bases.ss + (s.pushed sz).stackPtr + BitVec.ofNat 32 k).toNat ≠ x) →
        t.mem.read x = s.mem.read x := by
  obtain ⟨hfit, hwrite⟩ := memWrite_eq_ok (push_eq_ok h)
  obtain ⟨hstate, hheld, hframe⟩ := linWrite_effect sz.bytes_le hwrite
  rw [← State.pushed, State.pushed_linear_ss] at hheld hframe
  exact ⟨hfit, hstate, hheld, by simpa [State.pushed] using hframe⟩

theorem pop_of_holds {sz : SizeAttr} {v : BitVec sz.bits} {s : State}
    (hfit : s.stackPtr.toNat + sz.bytes ≤ 2 ^ s.stackAddrSize.bits)
    (h : s.mem.holds (s.bases.ss + s.stackPtr) (toLE sz.bytes v)) :
    pop sz s = .ok (v, s.moveStackPtr (BitVec.ofNat 32 sz.bytes)) := by
  simp [pop, memRead_of_holds (seg := .ss) hfit h]

theorem State.pushed_of_s16 {s : State} (h : s.bBit = false) (sz : SizeAttr) :
    s.pushed sz = s.setGprs (s.gprs.set16 .sp (s.gprs.get16 .sp - BitVec.ofNat 16 sz.bytes)) := by
  have hneg : (-(BitVec.ofNat 32 sz.bytes)).setWidth 16 = -(BitVec.ofNat 16 sz.bytes) := by
    cases sz <;> rfl
  rw [State.pushed, State.moveStackPtr_of_s16 h, hneg, BitVec.sub_eq_add_neg]

theorem State.pushed_of_s32 {s : State} (h : s.bBit = true) (sz : SizeAttr) :
    s.pushed sz = s.setGprs (s.gprs.set .esp (s.gprs.esp - BitVec.ofNat 32 sz.bytes)) := by
  rw [State.pushed, State.moveStackPtr_of_s32 h, BitVec.sub_eq_add_neg]

theorem State.stackPtr_pushed_of_s16 {s : State} (h : s.bBit = false) (sz : SizeAttr) :
    (s.pushed sz).stackPtr = (s.gprs.get16 .sp - BitVec.ofNat 16 sz.bytes).setWidth 32 := by
  rw [State.pushed_of_s16 h, State.stackPtr_of_s16 (by simpa using h)]
  simp

theorem State.stackPtr_pushed_of_s32 {s : State} (h : s.bBit = true) (sz : SizeAttr) :
    (s.pushed sz).stackPtr = s.gprs.esp - BitVec.ofNat 32 sz.bytes := by
  rw [State.pushed_of_s32 h, State.stackPtr_of_s32 (by simpa using h)]
  simp

/-- Settles O34: the effect of a push that completes, with the moved pointer read off for each setting of B. -/
theorem pushStoresBelowTheStackTop : Obligations.PushStoresBelowTheStackTop := by
  unfold Obligations.PushStoresBelowTheStackTop
  intro s sz v sp hsp16 hsp32 hfit hw
  have hsp : (s.pushed sz).stackPtr = sp := by
    cases hB : s.bBit with
    | false => rw [hsp16 hB, State.stackPtr_pushed_of_s16 hB]
    | true => rw [hsp32 hB, State.stackPtr_pushed_of_s32 hB]
  subst hsp
  obtain ⟨t, ht⟩ := push_completes v hfit hw
  obtain ⟨-, hstate, hheld, hframe⟩ := push_effect ht
  have hgprs : t.gprs = (s.pushed sz).gprs := by rw [hstate]; rfl
  refine ⟨t, ht, fun hB => ?_, fun hB => ?_, hheld, hframe, ?_⟩
  · rw [hgprs, State.stackPtr_pushed_of_s16 hB, State.pushed_of_s16 hB]
    simp
  · rw [hgprs, State.stackPtr_pushed_of_s32 hB, State.pushed_of_s32 hB]
    rfl
  · calc t = (s.pushed sz).setMem t.mem := hstate
      _ = (s.setGprs t.gprs).setMem t.mem := by
        rw [hgprs, State.pushed, ← State.moveStackPtr_eq_setGprs]

/-- Settles O35: the read answers the bytes held, and the move is SP's or ESP's by the setting of B. -/
theorem popReadsTheStackTop : Obligations.PopReadsTheStackTop := by
  unfold Obligations.PopReadsTheStackTop
  intro s sz v hfit hheld
  rw [pop_of_holds hfit hheld]
  refine ⟨fun hB => ?_, fun hB => ?_⟩
  · have hbytes : (BitVec.ofNat 32 sz.bytes).setWidth 16 = BitVec.ofNat 16 sz.bytes := by
      cases sz <;> rfl
    rw [State.moveStackPtr_of_s16 hB, hbytes]
    rfl
  · rw [State.moveStackPtr_of_s32 hB]
    rfl

/-- Settles O36: the pop reads what the push stored, and its move undoes the push's. -/
theorem pushThenPopReturnsTheValue : Obligations.PushThenPopReturnsTheValue := by
  unfold Obligations.PushThenPopReturnsTheValue
  intro s t sz v h
  obtain ⟨hfit, hstate, hheld, -⟩ := push_effect h
  have hsize : t.stackAddrSize = s.stackAddrSize := by
    rw [hstate, State.stackAddrSize_setMem, State.pushed, State.stackAddrSize_moveStackPtr]
  have hptr : t.stackPtr = (s.pushed sz).stackPtr := by rw [hstate, State.stackPtr_setMem]
  have hbase : t.bases = s.bases := by rw [hstate]; simp [State.pushed]
  have hmove : t.moveStackPtr (BitVec.ofNat 32 sz.bytes) = s.setMem t.mem := by
    calc t.moveStackPtr (BitVec.ofNat 32 sz.bytes)
        = ((s.pushed sz).setMem t.mem).moveStackPtr (BitVec.ofNat 32 sz.bytes) := by rw [← hstate]
      _ = ((s.pushed sz).moveStackPtr (BitVec.ofNat 32 sz.bytes)).setMem t.mem :=
        State.moveStackPtr_setMem ..
      _ = (s.moveStackPtr 0#32).setMem t.mem := by
        rw [State.pushed, State.moveStackPtr_moveStackPtr, BitVec.add_comm, BitVec.add_right_neg]
      _ = s.setMem t.mem := by rw [State.moveStackPtr_zero]
  rw [pop_of_holds (v := v) (by rwa [hptr, hsize]) (by rwa [hbase, hptr]), hmove]
  rfl

/-! ### Bit (R25 to R27) -/

theorem bitPlace_register_inRange (code : BitVec 3) {k : Int} (h : 0 ≤ k ∧ k ≤ 31) :
    bitPlace (.register .dword code) k = .ok (.inRegister (Reg32.ofCode code) k.toNat) :=
  if_pos h

theorem bitPlace_register_outOfRange (code : BitVec 3) {k : Int} (h : k < 0 ∨ 31 < k) :
    bitPlace (.register .dword code) k = .error (.refusal .bitOffsetOutOfRange) :=
  if_neg (by omega)

theorem bitPlace_memory_inRange (a : Word32) {k : Int} (h : -(2 ^ 31) ≤ k ∧ k < 2 ^ 31) :
    bitPlace (.memory a) k = .ok (.inMemory (a + BitVec.ofInt 32 (k / 8)) (k % 8).toNat) :=
  if_pos h

/-- Settles O37: an offset `8 * q + r` has the quotient `q` and the remainder `r`, `q` negative or not. -/
theorem bitInMemoryByFloorDivision : Obligations.BitInMemoryByFloorDivision := by
  unfold Obligations.BitInMemoryByFloorDivision
  intro a q r hr0 hr8 hlo hhi
  have hdiv : (8 * q + r) / 8 = q := by omega
  have hmod : (8 * q + r) % 8 = r := by omega
  rw [bitPlace_memory_inRange a ⟨hlo, hhi⟩, hdiv, hmod]

/-- Settles O39: the register cases of `bitPlace`, one clause each. -/
theorem bitInARegister : Obligations.BitInARegister := by
  unfold Obligations.BitInARegister
  refine ⟨fun s code k hk => ?_, fun code k hk => bitPlace_register_outOfRange code hk,
    fun _ _ => rfl, fun _ _ => rfl⟩
  exact ⟨_, bitPlace_register_inRange code (k := k) (by omega), rfl⟩

/-! ### I-O-Permission (R28 to R30) -/

theorem getLsbD_ioBitMask (w : Width) (i : Nat) : (ioBitMask w).getLsbD i = decide (i < w.bytes) := by
  have hmask : ioBitMask w = BitVec.ofNat 16 (2 ^ w.bytes - 1) := by cases w <;> rfl
  have hbytes : w.bytes ≤ 16 := by cases w <;> decide
  rw [hmask, BitVec.getLsbD_ofNat, Nat.testBit_two_pow_sub_one]
  by_cases h : i < w.bytes
  · simp [h, show i < 16 by omega]
  · simp [h]

/-- The shifted mask picks one bit for each byte of the access, from the shift on. -/
theorem getLsbD_and_ioBitMask (check : Word16) (w : Width) (k i : Nat) :
    (check &&& (ioBitMask w <<< k)).getLsbD i =
      (check.getLsbD i && decide (k ≤ i ∧ i < k + w.bytes)) := by
  rw [BitVec.getLsbD_and, BitVec.getLsbD_shiftLeft, getLsbD_ioBitMask]
  by_cases hi : i < 16
  · congr 1
    simp only [hi, decide_true, Bool.true_and, ← decide_not, ← Bool.decide_and, decide_eq_decide]
    omega
  · simp [BitVec.getLsbD_of_ge check i (by omega)]

theorem and_ioBitMask_eq_zero_iff (check : Word16) (w : Width) (k : Nat) :
    check &&& (ioBitMask w <<< k) = 0#16 ↔ ∀ j, j < w.bytes → check.getLsbD (k + j) = false := by
  constructor
  · intro h j hj
    have hbit := getLsbD_and_ioBitMask check w k (k + j)
    rw [h, BitVec.getLsbD_zero, decide_eq_true (by omega), Bool.and_true] at hbit
    exact hbit.symm
  · intro h
    apply BitVec.eq_of_getLsbD_eq
    intro i hi
    rw [getLsbD_and_ioBitMask, BitVec.getLsbD_zero]
    by_cases hin : k ≤ i ∧ i < k + w.bytes
    · have hclear := h (i - k) (by omega)
      rw [Nat.add_sub_cancel' hin.1] at hclear
      rw [hclear, Bool.false_and]
    · rw [decide_eq_false hin, Bool.and_false]

theorem toNat_and_seven (x : Word32) : (x &&& 7).toNat = x.toNat % 8 := by
  rw [BitVec.toNat_and]
  exact Nat.and_two_pow_sub_one_eq_mod x.toNat 3

theorem ioBitmapClear_of_holds {m : Memory} {ptr io : Word32} (w : Width) {b0 b1 : Byte}
    (h : m.holds ((io >>> 3) + ptr) [b0, b1]) :
    ioBitmapClear m ptr io w =
      .ok (ofLE 2 [b0, b1] &&& (ioBitMask w <<< (io.toNat % 8)) == 0) := by
  have hread : linRead m ((io >>> 3) + ptr) 2 = .ok (ofLE 2 [b0, b1]) := linRead_of_holds_bytes h
  simp only [ioBitmapClear, hread, toNat_and_seven]

/-- Settles O40: bit `i` of the two bytes read is bit `i` of the first or bit `i - 8` of the second. -/
theorem ioBitmapTestReadsTheAccessBits : Obligations.IoBitmapTestReadsTheAccessBits := by
  unfold Obligations.IoBitmapTestReadsTheAccessBits
  intro m ptr io w b0 b1 h
  refine ⟨_, ioBitmapClear_of_holds w h, ?_⟩
  rw [beq_iff_eq]
  refine (and_ioBitMask_eq_zero_iff _ w _).trans ?_
  simp only [getLsbD_ofLE_two]

theorem ioMapPtr_of_holds {m : Memory} {tss : Word32} {off : IomapPtrOffset} {wd : SizeAttr}
    {v : BitVec (8 * wd.bytes)} (h : m.holds (tss + iomapOffset off) (toLE wd.bytes v)) :
    ioMapPtr m tss off wd false = .ok (v.setWidth 32) ∧
      ioMapPtr m tss off wd true = .ok (v.setWidth 32 + tss) := by
  simp [ioMapPtr, linRead_of_holds h]

/-- A doubleword pointer is the value read itself. -/
theorem ioMapPtr_of_holds_dword {m : Memory} {tss v : Word32} {off : IomapPtrOffset}
    (h : m.holds (tss + iomapOffset off) (toLE 4 v)) :
    ioMapPtr m tss off .s32 false = .ok v ∧ ioMapPtr m tss off .s32 true = .ok (v + tss) := by
  have hsame : v.setWidth 32 = v := BitVec.setWidth_eq v
  have hptr := ioMapPtr_of_holds (wd := .s32) h
  exact hsame ▸ hptr

theorem ioPermissionWith_tss286 {s : State} (h : s.tssType = .tss286) (off : IomapPtrOffset)
    (wd : SizeAttr) (rel other : Bool) (io : Word32) (w : Width) :
    ioPermissionWith off wd rel other s io w = .ok false := by
  simp [ioPermissionWith, h]

theorem ioPermissionWith_tss386 {s : State} {off : IomapPtrOffset} {wd : SizeAttr} {rel : Bool}
    {io ptr : Word32} {w : Width} {b : Bool} (h : s.tssType = .tss386)
    (hptr : ioMapPtr s.mem s.tssBase off wd rel = .ok ptr)
    (hclear : ioBitmapClear s.mem ptr io w = .ok b) (other : Bool) :
    ioPermissionWith off wd rel other s io w = .ok (b && other) := by
  simp [ioPermissionWith, h, hptr, hclear]

/-- What I-O-Permission can do where it answers TRUE: the bitmap test at the pointer has passed. -/
theorem ioPermissionWith_eq_true {s : State} {off : IomapPtrOffset} {wd : SizeAttr} {rel other : Bool}
    {io : Word32} {w : Width} (h : ioPermissionWith off wd rel other s io w = .ok true) :
    s.tssType = .tss386 ∧ ∃ ptr, ioMapPtr s.mem s.tssBase off wd rel = .ok ptr ∧
      ioBitmapClear s.mem ptr io w = .ok true := by
  unfold ioPermissionWith at h
  split at h
  · cases h
  · next htss =>
    split at h
    · cases h
    · next ptr hptr =>
      split at h
      · cases h
      · next b hclear =>
        obtain ⟨rfl, -⟩ : b = true ∧ other = true := by simpa using h
        exact ⟨htss, ptr, hptr, hclear⟩

/-- Settles O41: the pointer for each place and width, then I-O-Permission by the type of the TSS. -/
theorem ioPermissionNeedsTheBitmap : Obligations.IoPermissionNeedsTheBitmap := by
  unfold Obligations.IoPermissionNeedsTheBitmap
  refine ⟨fun m tss v v16 => ⟨?_, ?_, ?_, ?_⟩, fun off wd rel other s io w => ⟨?_, ?_, ?_⟩⟩
  · exact ioMapPtr_of_holds (off := .decimal66) (wd := .s16)
  · exact ioMapPtr_of_holds (off := .hex66) (wd := .s16)
  · exact ioMapPtr_of_holds_dword (off := .decimal66)
  · exact ioMapPtr_of_holds_dword (off := .hex66)
  · exact fun h => ioPermissionWith_tss286 h off wd rel other io w
  · exact fun ptr b h hptr hclear => ioPermissionWith_tss386 h hptr hclear other
  · exact ioPermissionWith_eq_true

/-! ### Truncate, ZeroExtend, SignExtend (R16, R18, R19) -/

/-- Settles O19. -/
theorem truncateKeepsLowWord : Obligations.TruncateKeepsLowWord :=
  fun _ v => BitVec.toNat_setWidth 16 v

theorem toNat_zeroExtendTo {sz : SizeAttr} {w : Nat} (v : BitVec w) (h : w ≤ sz.bits) :
    (zeroExtendTo sz v).toNat = v.toNat :=
  BitVec.toNat_setWidth_of_le h

theorem toInt_signExtendTo {sz : SizeAttr} {w : Nat} (v : BitVec w) (h : w ≤ sz.bits) :
    (signExtendTo sz v).toInt = v.toInt :=
  BitVec.toInt_signExtend_of_le h

/-- Settles O20. -/
theorem zeroExtendToOperandSize : Obligations.ZeroExtendToOperandSize :=
  ⟨fun _ _ v h => toNat_zeroExtendTo v h, toNat_zeroExtendTo _ (by decide),
    fun _ v => BitVec.setWidth_eq v⟩

/-- Settles O21. -/
theorem signExtendToOperandSize : Obligations.SignExtendToOperandSize :=
  ⟨fun _ _ v h => toInt_signExtendTo v h, by decide,
    fun _ v => BitVec.eq_of_toInt_eq (toInt_signExtendTo v (Nat.le_refl _))⟩

/-! ### The Flags Affected convention (R32, R33) -/

/-- Settles O43: `setCf` and `drawn` each write their own field, one entry of the convention at a time. -/
theorem flagsAffectedConvention : Obligations.FlagsAffectedConvention :=
  fun _ _ => ⟨rfl, rfl, rfl, rfl, rfl⟩

end Sys2Proof.Machine
end

section
/-! PROOFS. The statements of 10_state: register codes and their aliasing, segment register codes, the
stack pointer, and what a step runs and where it leaves pc. First the rules about narrow registers, the
decoder and the fetch that they rest on. -/

namespace Sys2Proof

/-! ### The prefixes an instruction can carry (R107, R113, D3) -/

theorem PrefixGroup.mem_all (g : PrefixGroup) :
    g ∈ ([.instruction, .addressSize, .operandSize, .segmentOverride] : List PrefixGroup) := by
  cases g <;> decide

/-- Accepted prefixes are of groups that differ from each other and from those already seen. -/
theorem prefixesOk_iff {seen : List PrefixGroup} {ps : List Prefix} :
    prefixesOk seen ps = true ↔
      (ps.map Prefix.group).Nodup ∧ ∀ p ∈ ps, p.group ∉ seen := by
  induction ps generalizing seen with
  | nil => simp [prefixesOk]
  | cons p ps ih =>
    simp only [prefixesOk, Bool.and_eq_true, Bool.not_eq_true', List.contains_eq_mem,
      decide_eq_false_iff_not, ih, List.map_cons, List.nodup_cons, List.mem_map, List.mem_cons]
    grind

/-- There are four groups, and no more prefixes than groups. -/
theorem length_le_four_of_prefixesOk {ps : List Prefix} (h : prefixesOk [] ps = true) :
    ps.length ≤ 4 := by
  obtain ⟨hnodup, -⟩ := prefixesOk_iff.mp h
  have hsub := List.subperm_of_subset hnodup fun g _ => PrefixGroup.mem_all g
  simpa using hsub.length_le

theorem Instr.length_le_maxInstrLen {i : Instr} (h : i.wellFormed = true) :
    i.length ≤ maxInstrLen := by
  obtain ⟨hps, -⟩ := Bool.and_eq_true_iff.mp h
  exact Nat.succ_le_succ (length_le_four_of_prefixesOk hps)

theorem Instr.length_pos (i : Instr) : 0 < i.length :=
  Nat.succ_pos _

@[simp] theorem encode_length (i : Instr) : (encode i).length = i.length := by
  simp [encode, Instr.length]

/-! ### The decoder inverts the encoder (R107, R113, R161) -/

/-- What reading the prefixes can do: it takes the bytes of accepted prefixes and the opcode byte
that ends them. -/
theorem readPrefixes_eq_ok_iff {seen : List PrefixGroup} {bs rest : List Byte} {ps : List Prefix}
    {op : Byte} :
    readPrefixes seen bs = .ok (ps, op, rest) ↔
      bs = ps.map Prefix.byte ++ op :: rest ∧ prefixesOk seen ps = true ∧
        isOpcodeByte op = true := by
  constructor
  · intro h
    induction bs generalizing seen ps with
    | nil => cases h
    | cons b bs ih =>
      unfold readPrefixes at h
      split at h
      · next hb => cases h; simp [prefixesOk, isOpcodeByte, hb]
      · next p hb =>
        split at h
        · cases h
        · next hseen =>
          split at h
          · cases h
          · next ps' op' rest' hrec =>
            cases h
            obtain ⟨hbs, hps, hop⟩ := ih hrec
            refine ⟨?_, ?_, hop⟩
            · rw [hbs, ← Prefix.byte_of_ofByte hb]; rfl
            · rw [prefixesOk, hps, Bool.and_true, Bool.not_eq_true']
              exact Bool.eq_false_iff.mpr hseen
  · rintro ⟨rfl, hps, hop⟩
    induction ps generalizing seen with
    | nil => simp [readPrefixes, beq_iff_eq.mp hop]
    | cons p ps ih =>
      obtain ⟨hseen, hps⟩ := Bool.and_eq_true_iff.mp hps
      have hnew : p.group ∉ seen := by simpa using hseen
      simp [readPrefixes, hnew, ih hps]

/-- A constructor stands for the first of its prefixes, so the prefixes and the opcode byte are the
instruction's. -/
theorem assemble_eq_ok_iff {ps : List Prefix} {op : Byte} {i : Instr} :
    assemble ps op = .ok i ↔ i.prefixes = ps ∧ i.opcodeByte = op := by
  constructor
  · intro h
    unfold assemble at h
    split at h
    case h_1 =>
      split at h
      · next hop => cases h; exact ⟨rfl, hop.symm⟩
      · cases h
    all_goals cases h; exact ⟨rfl, rfl⟩
  · rintro ⟨rfl, rfl⟩
    cases i <;> rfl

/-- Bytes decode to an instruction exactly when it is well-formed and they begin with its bytes. -/
theorem decode_eq_ok_iff {bs rest : List Byte} {i : Instr} :
    decode bs = .ok (i, rest) ↔ i.wellFormed = true ∧ bs = encode i ++ rest := by
  have hbytes : encode i ++ rest = i.prefixes.map Prefix.byte ++ i.opcodeByte :: rest := by
    simp [encode]
  rw [hbytes, Instr.wellFormed, Bool.and_eq_true_iff]
  constructor
  · intro h
    unfold decode at h
    split at h
    · cases h
    · next ps op rest' hread =>
      split at h
      · cases h
      · next j hasm =>
        cases h
        obtain ⟨rfl, rfl⟩ := assemble_eq_ok_iff.mp hasm
        obtain ⟨hbs, hok⟩ := readPrefixes_eq_ok_iff.mp hread
        exact ⟨hok, hbs⟩
  · rintro ⟨hok, hbs⟩
    have hread := readPrefixes_eq_ok_iff.mpr ⟨hbs, hok⟩
    have hasm : assemble i.prefixes i.opcodeByte = .ok i := assemble_eq_ok_iff.mpr ⟨rfl, rfl⟩
    simp [decode, hread, hasm]

end Sys2Proof

namespace Sys2Proof.Machine

/-! ### The fetch (R45, R73) -/

theorem State.codeAt_cons {s : State} {off : Nat} {b : Byte} {bs : List Byte}
    (h : s.codeAt off (b :: bs)) : fetchByte s off = .ok b ∧ s.codeAt (off + 1) bs := by
  obtain ⟨hrange, hheld⟩ := h
  rw [List.length_cons] at hrange
  refine ⟨fetchByte_eq_ok.mpr ⟨by omega, hheld 0 (Nat.succ_pos _)⟩, by omega, fun k hk => ?_⟩
  rw [Nat.add_right_comm]
  exact hheld (k + 1) (Nat.succ_lt_succ hk)

/-- A window no shorter than the code in memory begins with that code. -/
theorem fetchWindow_of_codeAt {s : State} {off n : Nat} {bs : List Byte} (h : s.codeAt off bs)
    (hlen : bs.length ≤ n) : ∃ rest, (fetchWindow s off n).1 = bs ++ rest := by
  induction bs generalizing off n with
  | nil => exact ⟨_, rfl⟩
  | cons b bs ih =>
    obtain ⟨hb, hbs⟩ := State.codeAt_cons h
    obtain ⟨m, rfl⟩ : ∃ m, n = m + 1 := Nat.exists_eq_add_one.mpr (Nat.zero_lt_of_lt hlen)
    obtain ⟨rest, hrest⟩ := ih hbs (Nat.le_of_succ_le_succ hlen)
    exact ⟨rest, by simp [fetchWindow, hb, hrest]⟩

/-! ### What a step runs and where it leaves pc (R45, R73, R113) -/

theorem step_of_decode {s : State} {i : Instr} {rest : List Byte}
    (h : decode s.fetched.1 = .ok (i, rest)) : step s = exec i s := by
  simp [step, h]

/-- Settles O51. -/
theorem stepRunsTheDecodedInstruction : Obligations.StepRunsTheDecodedInstruction :=
  fun _ _ _ h => step_of_decode h

/-- Settles O52: an instruction is no longer than the window step decodes, so the window begins with its
bytes and decodes to it. -/
theorem stepRunsTheInstructionInMemory : Obligations.StepRunsTheInstructionInMemory := by
  unfold Obligations.StepRunsTheInstructionInMemory
  intro s i hwf hcode
  have hlen : (encode i).length ≤ maxInstrLen := by
    rw [encode_length]
    exact Instr.length_le_maxInstrLen hwf
  obtain ⟨rest, hwindow⟩ := fetchWindow_of_codeAt hcode hlen
  exact step_of_decode (decode_eq_ok_iff.mpr ⟨hwf, hwindow⟩)

/-- Inside an offset range of at most 2^32 the program counter does not wrap. -/
theorem toNat_pc_add {s : State} {len : Nat} (h : s.pc.toNat + len < 2 ^ s.codeSize.bits) :
    (s.pc + BitVec.ofNat 32 len).toNat = s.pc.toNat + len := by
  have hbits : 2 ^ s.codeSize.bits ≤ 2 ^ 32 := by cases s.codeSize <;> decide
  rw [BitVec.toNat_add, BitVec.toNat_ofNat]
  omega

/-- Settles O57: the step adds the length of a decoded instruction, which is 1 to 5 bytes. -/
theorem stepMovesPcForwardInRange : Obligations.StepMovesPcForwardInRange := by
  unfold Obligations.StepMovesPcForwardInRange
  intro s t h
  obtain ⟨i, rest, hdec, hexec⟩ := step_eq_next h
  obtain ⟨hwf, -⟩ := decode_eq_ok_iff.mp hdec
  obtain ⟨hrange, rfl⟩ := exec_eq_next hexec
  have hpos := i.length_pos
  have hmax : i.length ≤ 5 := Instr.length_le_maxInstrLen hwf
  rw [State.setPc_pc, toNat_pc_add hrange]
  omega

/-- Settles O58. -/
theorem resetSatisfiesTheLaunchConditions : Obligations.ResetSatisfiesTheLaunchConditions where
  memWf := rfl
  dBitConsistent := fun _ => rfl
  pcInRange := by decide

/-! ### Register codes (R40, R42, R44) -/

/-- Settles O12, one column of the table at a time. -/
theorem generalRegisterCodes : Obligations.GeneralRegisterCodes :=
  ⟨rfl, rfl, rfl⟩

theorem sregOperand_code (x : Sreg) : sregOperand x.code = .ok x := by
  simp [sregOperand]

theorem sregOperand_unassigned {c : BitVec 3} (h : 6 ≤ c.toNat) :
    sregOperand c = .error (.refusal (.sregUnassigned c)) := by
  have hnone : Sreg.ofCode c = none := by
    revert c
    decide
  simp [sregOperand, hnone]

/-- Settles O14. -/
theorem unassignedSegmentCodesRefused : Obligations.UnassignedSegmentCodesRefused :=
  ⟨sregOperand_code, fun _ h => sregOperand_unassigned h⟩

theorem wideOf16_ofCode (c : BitVec 3) : wideOf16 (Reg16.ofCode c) = Reg32.ofCode c := by
  revert c
  decide

/-- Codes 0 to 3 are the low bytes of the doubleword registers of the same codes. -/
theorem byteReg_ofCode_low {c : BitVec 3} (h : c.toNat < 4) :
    isHigh8 (Reg8.ofCode c) = false ∧ wideOf8 (Reg8.ofCode c) = Reg32.ofCode c := by
  revert c
  decide

/-- Codes 4 to 7 are the high bytes of the doubleword registers of codes 0 to 3. -/
theorem byteReg_ofCode_high {c : BitVec 3} (h : 4 ≤ c.toNat) :
    isHigh8 (Reg8.ofCode c) = true ∧ wideOf8 (Reg8.ofCode c) = Reg32.ofCode (c - 4) := by
  revert c
  decide

/-! ### Narrow writes (R42) -/

/-- The top bits of a doubleword, taken out and looked up at their old places. -/
theorem getLsbD_extract_top (x : Word32) {lo n k : Nat} (hn : lo + n = 32) (hk : lo ≤ k) :
    (x.extractLsb' lo n).getLsbD (k - lo) = x.getLsbD k := by
  rw [BitVec.getLsbD_extractLsb', Nat.add_sub_cancel' hk]
  by_cases hlt : k < 32
  · simp [show k - lo < n by omega]
  · simp [BitVec.getLsbD_of_ge x k (by omega)]

theorem Gprs.getLsbD_get_set16 (g : Gprs) (r : Reg16) (v : Word16) (k : Nat) :
    ((g.set16 r v).get (wideOf16 r)).getLsbD k =
      if k < 16 then v.getLsbD k else (g.get (wideOf16 r)).getLsbD k := by
  rw [Gprs.set16, Gprs.get_set, if_pos rfl, getLsbD_append_words]
  split
  · rfl
  · exact getLsbD_extract_top _ rfl (by omega)

theorem Gprs.get8_low (g : Gprs) {r : Reg8} (h : isHigh8 r = false) :
    g.get8 r = (g.get (wideOf8 r)).extractLsb' 0 8 := by
  simp [Gprs.get8, h]

theorem Gprs.get8_high (g : Gprs) {r : Reg8} (h : isHigh8 r = true) :
    g.get8 r = (g.get (wideOf8 r)).extractLsb' 8 8 := by
  simp [Gprs.get8, h]

/-- A byte write replaces the doubleword register the byte is part of. -/
theorem Gprs.set8_low (g : Gprs) {r : Reg8} (h : isHigh8 r = false) (v : Byte) :
    g.set8 r v = g.set (wideOf8 r) ((g.get (wideOf8 r)).extractLsb' 8 24 ++ v) := by
  simp [Gprs.set8, h]

theorem Gprs.set8_high (g : Gprs) {r : Reg8} (h : isHigh8 r = true) (v : Byte) :
    g.set8 r v = g.set (wideOf8 r)
      ((g.get (wideOf8 r)).extractLsb' 16 16 ++ v ++ (g.get (wideOf8 r)).extractLsb' 0 8) := by
  simp [Gprs.set8, h]

theorem Gprs.getLsbD_get_set8_low (g : Gprs) {r : Reg8} (h : isHigh8 r = false) (v : Byte)
    (k : Nat) : ((g.set8 r v).get (wideOf8 r)).getLsbD k =
      if k < 8 then v.getLsbD k else (g.get (wideOf8 r)).getLsbD k := by
  rw [Gprs.set8_low g h, Gprs.get_set, if_pos rfl, getLsbD_append_lowByte]
  split
  · rfl
  · exact getLsbD_extract_top _ rfl (by omega)

theorem Gprs.getLsbD_get_set8_high (g : Gprs) {r : Reg8} (h : isHigh8 r = true) (v : Byte)
    (k : Nat) : ((g.set8 r v).get (wideOf8 r)).getLsbD k =
      if 8 ≤ k ∧ k < 16 then v.getLsbD (k - 8) else (g.get (wideOf8 r)).getLsbD k := by
  rw [Gprs.set8_high g h, Gprs.get_set, if_pos rfl, getLsbD_append_highByte]
  by_cases hlow : k < 8
  · simp [hlow, show ¬ 8 ≤ k by omega]
  · by_cases hmid : k < 16
    · simp [hlow, hmid, show 8 ≤ k by omega]
    · simp only [hlow, hmid, and_false, if_false]
      exact getLsbD_extract_top _ rfl (by omega)

@[simp] theorem Gprs.get8_set8 (g : Gprs) (r : Reg8) (v : Byte) : (g.set8 r v).get8 r = v := by
  apply BitVec.eq_of_getLsbD_eq
  intro i hi
  cases h : isHigh8 r with
  | false =>
    rw [Gprs.get8_low _ h, BitVec.getLsbD_extractLsb', Gprs.getLsbD_get_set8_low g h]
    simp [hi]
  | true =>
    rw [Gprs.get8_high _ h, BitVec.getLsbD_extractLsb', Gprs.getLsbD_get_set8_high g h]
    simp [hi, show 8 + i < 16 by omega]

theorem Gprs.get_set8_other (g : Gprs) (r : Reg8) (v : Byte) (q : Reg32) (hq : wideOf8 r ≠ q) :
    (g.set8 r v).get q = g.get q := by
  cases h : isHigh8 r with
  | false => rw [Gprs.set8_low g h, Gprs.get_set, if_neg hq]
  | true => rw [Gprs.set8_high g h, Gprs.get_set, if_neg hq]

/-- Settles O15: the register's code gives the doubleword register and the place in it, where a write
replaces the narrow register's bits. -/
theorem narrowWritesChangeOnlyTheirBits : Obligations.NarrowWritesChangeOnlyTheirBits := by
  unfold Obligations.NarrowWritesChangeOnlyTheirBits
  refine ⟨fun g c v => ?_, fun g c v hc => ?_, fun g c v hc => ?_⟩
  · rw [← wideOf16_ofCode]
    refine ⟨rfl, Gprs.get16_set16 .., fun k hk => ?_,
      fun q hq => Gprs.get_set16_other _ _ _ _ hq.symm⟩
    rw [Gprs.getLsbD_get_set16, if_neg (by omega)]
  · obtain ⟨hlow, hwide⟩ := byteReg_ofCode_low hc
    rw [← hwide]
    refine ⟨Gprs.get8_low g hlow, Gprs.get8_set8 .., fun k hk => ?_,
      fun q hq => Gprs.get_set8_other _ _ _ _ hq.symm⟩
    rw [Gprs.getLsbD_get_set8_low g hlow, if_neg (by omega)]
  · obtain ⟨hhigh, hwide⟩ := byteReg_ofCode_high hc
    rw [← hwide]
    refine ⟨Gprs.get8_high g hhigh, Gprs.get8_set8 .., fun k hk => ?_,
      fun q hq => Gprs.get_set8_other _ _ _ _ hq.symm⟩
    rw [Gprs.getLsbD_get_set8_high g hhigh, if_neg (by omega)]

/-! ### The stack pointer (R49, R82, R105) -/

theorem State.stackAddrSize_of_bBit {s : State} {b : Bool} (h : s.bBit = b) :
    s.stackAddrSize = sizeOfBit b :=
  congrArg sizeOfBit h

/-- Settles O18. -/
theorem stackPointerByBBit : Obligations.StackPointerByBBit := by
  unfold Obligations.StackPointerByBBit
  refine fun s => ⟨fun hB => ⟨State.stackAddrSize_of_bBit hB, ?_⟩,
    fun hB => ⟨State.stackAddrSize_of_bBit hB, State.stackPtr_of_s32 hB⟩⟩
  have hlow : (s.gprs.get16 .sp).toNat = s.gprs.esp.toNat % 2 ^ 16 := by
    simp [Gprs.get16, wideOf16, Gprs.get]
  rw [State.stackPtr_of_s16 hB, BitVec.toNat_setWidth_of_le (by decide), hlow]

end Sys2Proof.Machine
end

section
/-! PROOFS. The statements of 20_memory: linear writes, reads through a segment, two-part operands, bit
strings, default segments and overrides, and a fetch of a byte not held. First the rules that read and
write bytes as lists, which they rest on. -/

namespace Sys2Proof

/-! ### The bytes of a value by their places (R70) -/

theorem getElem?_natToLE {n k : Nat} (v : Nat) (h : k < n) :
    (natToLE n v)[k]? = some (BitVec.ofNat 8 (v / 256 ^ k)) := by
  induction n generalizing v k with
  | zero => exact absurd h (Nat.not_lt_zero k)
  | succ n ih =>
    cases k with
    | zero => simp [natToLE]
    | succ k =>
      simp [natToLE, ih (v / 256) (Nat.lt_of_succ_lt_succ h), Nat.div_div_eq_div_mul, Nat.pow_succ']

theorem getElem?_toLE {n k : Nat} (v : BitVec (8 * n)) (h : k < n) :
    (toLE n v)[k]? = some (v.extractLsb' (8 * k) 8) := by
  rw [toLE, getElem?_natToLE v.toNat h, pow_256_eq, ← Nat.shiftRight_eq_div_pow]
  rfl

end Sys2Proof

namespace Sys2Proof.Machine

/-! ### A read answers what memory holds (R70, R78) -/

theorem linReadBytes_eq_ok_iff {m : Memory} {a : Word32} {n : Nat} {bs : List Byte} :
    linReadBytes m a n = .ok bs ↔ bs.length = n ∧ m.holds a bs := by
  constructor
  · intro h
    obtain ⟨rfl, hheld⟩ := linReadBytes_eq_ok h
    exact ⟨rfl, hheld⟩
  · rintro ⟨rfl, hheld⟩
    exact linReadBytes_of_holds hheld

/-- LinRead answers a value exactly where memory holds the value's bytes. -/
theorem linRead_eq_ok_iff {m : Memory} {a : Word32} {n : Nat} {v : BitVec (8 * n)} :
    linRead m a n = .ok v ↔ m.holds a (toLE n v) := by
  constructor
  · intro h
    obtain ⟨bs, hread, rfl⟩ := linRead_eq_ok h
    obtain ⟨hlen, hheld⟩ := linReadBytes_eq_ok_iff.mp hread
    rwa [toLE_ofLE n bs hlen]
  · exact linRead_of_holds

theorem Memory.holds_append {m : Memory} {a : Word32} {bs cs : List Byte} :
    m.holds a (bs ++ cs) ↔ m.holds a bs ∧ m.holds (a + BitVec.ofNat 32 bs.length) cs := by
  induction bs generalizing a with
  | nil => simp [Memory.holds_nil]
  | cons b bs ih =>
    rw [List.cons_append, Memory.holds_cons, Memory.holds_cons, ih, List.length_cons,
      linear_add_succ, and_assoc]

/-- Byte k of a value in memory is at address + k. -/
theorem Memory.read_of_holds_toLE {m : Memory} {a : Word32} {n k : Nat} {v : BitVec (8 * n)}
    (h : m.holds a (toLE n v)) (hk : k < n) :
    m.read (a + BitVec.ofNat 32 k).toNat = some (v.extractLsb' (8 * k) 8) := by
  rw [h k (by rwa [toLE_length]), getElem?_toLE v hk]

theorem linRead_byte_of_read {m : Memory} {a : Word32} {b : Byte} (h : m.read a.toNat = some b) :
    linRead m a 1 = .ok b := by
  have hbyte : toLE 1 b = [b] := by simp [toLE, natToLE]
  rw [linRead_eq_ok_iff, hbyte]
  exact Memory.holds_cons.mpr ⟨h, Memory.holds_nil m _⟩

/-! ### Linear writes (R70, R78, R84, R89, D8) -/

/-- Settles O31: the stored bytes are read at their places; the other clauses are the frame of LinWrite
and the canonical form, which each byte's store keeps. -/
theorem linearWriteStoresLittleEndian : Obligations.LinearWriteStoresLittleEndian := by
  unfold Obligations.LinearWriteStoresLittleEndian
  intro s t a n v hn h
  obtain ⟨hstate, hheld, hframe⟩ := linWrite_effect hn h
  refine ⟨fun k hk => Memory.read_of_holds_toLE hheld hk, hframe, hstate, fun hwf => ?_⟩
  obtain ⟨m, hm, rfl⟩ := linWrite_eq_ok h
  exact linWriteBytes_wf hm hwf

/-- A store to held addresses, one of them the program's, is refused at an address of the program. -/
theorem linWriteBytes_refused {g : Word32 → Bool} {m : Memory} {a : Word32} {bs : List Byte}
    (hheld : ∀ k, k < bs.length → (m.read (a + BitVec.ofNat 32 k).toNat).isSome = true)
    (hprog : ∃ k, k < bs.length ∧ g (a + BitVec.ofNat 32 k) = true) :
    ∃ x, g x = true ∧ linWriteBytes g m a bs = .error (.refusal (.storeIntoProgram x)) := by
  induction bs generalizing m a with
  | nil =>
    obtain ⟨k, hk, -⟩ := hprog
    exact absurd hk (Nat.not_lt_zero k)
  | cons b bs ih =>
    cases hfirst : g a with
    | true => exact ⟨a, hfirst, by simp [linWriteBytes, hfirst]⟩
    | false =>
      have hbyte : (m.read a.toNat).isSome = true := by
        have h0 := hheld 0 (Nat.succ_pos _)
        rwa [linear_add_zero] at h0
      have hheld' : ∀ k, k < bs.length →
          ((m.put a.toNat b).read (a + 1 + BitVec.ofNat 32 k).toNat).isSome = true := fun k hk => by
        rw [← linear_add_succ]
        exact Memory.read_put_isSome _ _ (hheld (k + 1) (Nat.succ_lt_succ hk))
      have hprog' : ∃ k, k < bs.length ∧ g (a + 1 + BitVec.ofNat 32 k) = true := by
        obtain ⟨k, hk, hgk⟩ := hprog
        cases k with
        | zero => rw [linear_add_zero, hfirst] at hgk; cases hgk
        | succ k => exact ⟨k, Nat.lt_of_succ_lt_succ hk, by rwa [← linear_add_succ]⟩
      simpa [linWriteBytes, hfirst, Memory.store_of_held hbyte] using ih hheld' hprog'

/-- Settles O32. -/
theorem linearWriteCompletesOutsideTheProgram :
    Obligations.LinearWriteCompletesOutsideTheProgram := by
  unfold Obligations.LinearWriteCompletesOutsideTheProgram
  refine fun s a n v _ => ⟨linWrite_completes v, fun hheld hprog => ?_⟩
  rw [← toLE_length n v] at hheld hprog
  obtain ⟨x, hx, hrefused⟩ := linWriteBytes_refused hheld hprog
  exact ⟨x, hx, by simp [linWrite, hrefused]⟩

/-! ### Reads through a segment (R71, D26) -/

theorem memRead_outOfRange {s : State} {aw : SizeAttr} {off : Word32} {n : Nat} (seg : Sreg)
    (h : 2 ^ aw.bits < off.toNat + n) :
    memRead s seg aw off n = .error (.refusal .offsetStraddle) :=
  if_neg (by simpa [offsetFits] using h)

/-- Settles O33. -/
theorem segmentReadIsLittleEndian : Obligations.SegmentReadIsLittleEndian :=
  fun _ seg _ _ _ _ => ⟨memRead_of_holds, memRead_outOfRange seg⟩

/-! ### Two-part operands (R75, D23) -/

/-- The bytes of a two-part operand in each order. -/
def pairBytes (order : PartOrder) {nl nr : Nat} (l : BitVec (8 * nl)) (r : BitVec (8 * nr)) :
    List Byte :=
  match order with
  | .leftFirst => toLE nl l ++ toLE nr r
  | .rightFirst => toLE nr r ++ toLE nl l

theorem pairBytes_length (order : PartOrder) {nl nr : Nat} (l : BitVec (8 * nl))
    (r : BitVec (8 * nr)) : (pairBytes order l r).length = nl + nr := by
  cases order with
  | leftFirst => simp [pairBytes]
  | rightFirst => simp [pairBytes, Nat.add_comm]

theorem splitPair_pairBytes (order : PartOrder) {nl nr : Nat} (l : BitVec (8 * nl))
    (r : BitVec (8 * nr)) : splitPair order nl nr (pairBytes order l r) = (l, r) := by
  cases order with
  | leftFirst => simp [splitPair, pairBytes]
  | rightFirst => simp [splitPair, pairBytes]

theorem pairBytes_splitPair (order : PartOrder) {nl nr : Nat} {bs : List Byte}
    (h : bs.length = nl + nr) :
    pairBytes order (splitPair order nl nr bs).1 (splitPair order nl nr bs).2 = bs := by
  cases order with
  | leftFirst =>
    rw [splitPair, pairBytes, toLE_ofLE nl _ (by simp [h]), toLE_ofLE nr _ (by simp [h]),
      List.take_append_drop]
  | rightFirst =>
    rw [splitPair, pairBytes, toLE_ofLE nr _ (by simp [h]), toLE_ofLE nl _ (by simp [h]),
      List.take_append_drop]

/-- A two-part operand is read exactly where it fits its offset range and memory holds its bytes. -/
theorem readPairWith_eq_ok_iff {order : PartOrder} {s : State} {e : EffAddr} {nl nr : Nat}
    {l : BitVec (8 * nl)} {r : BitVec (8 * nr)} :
    readPairWith order s e nl nr = .ok (l, r) ↔
      offsetFits e.aw e.off (nl + nr) = true ∧
        s.mem.holds (s.linear e.seg e.off) (pairBytes order l r) := by
  constructor
  · intro h
    unfold readPairWith at h
    split at h
    · next hfit =>
      split at h
      · cases h
      · next bs hread =>
        obtain ⟨hlen, hheld⟩ := linReadBytes_eq_ok_iff.mp hread
        have hsplit : splitPair order nl nr bs = (l, r) := Except.ok.inj h
        have hbytes := pairBytes_splitPair order hlen
        rw [hsplit] at hbytes
        exact ⟨hfit, by rwa [hbytes]⟩
    · cases h
  · rintro ⟨hfit, hheld⟩
    have hread := linReadBytes_eq_ok_iff.mpr ⟨pairBytes_length order l r, hheld⟩
    simp [readPairWith, hfit, hread, splitPair_pairBytes]

/-- Settles O29: the operand's bytes are held exactly where the low part's are at its address and the
high part's right after them. -/
theorem twoPartOperandsInEitherOrder : Obligations.TwoPartOperandsInEitherOrder := by
  unfold Obligations.TwoPartOperandsInEitherOrder
  intro s e nl nr l r
  simp only [readPairWith_eq_ok_iff, pairBytes, Memory.holds_append, toLE_length,
    linRead_eq_ok_iff, and_self]

/-! ### Bit strings (R27, R74) -/

theorem readBit_inMemory_of_read {s : State} {a : Word32} {b : Byte} (bit : Nat)
    (h : s.mem.read a.toNat = some b) : readBit s (.inMemory a bit) = .ok (b.getLsbD bit) := by
  simp [readBit, linRead_byte_of_read h]

/-- Settles O38: bit b is bit b mod 8 of byte b / 8 of the doubleword. -/
theorem bitStringIsTheDoubleword : Obligations.BitStringIsTheDoubleword := by
  unfold Obligations.BitStringIsTheDoubleword
  intro s a v b hb hheld
  have hbyte := Memory.read_of_holds_toLE (k := b / 8) hheld (by omega)
  have hplace : bitPlace (.memory a) b = .ok (.inMemory (a + BitVec.ofNat 32 (b / 8)) (b % 8)) :=
    bitPlace_memory_inRange a (k := b) (by omega)
  refine ⟨_, hplace, ?_⟩
  rw [readBit_inMemory_of_read _ hbyte, BitVec.getLsbD_extractLsb', Nat.div_add_mod,
    decide_eq_true (Nat.mod_lt b (by decide)), Bool.true_and]

/-! ### Default segments and overrides (R79, R81, R83) -/

/-- What reading a 16-bit form can do: disp16 alone at r/m = 110 with mod = 00, else the base-index part
of r/m with some displacement. -/
theorem readMem16_eq_some {mod : BitVec 2} {rm : BitVec 3} {bs rest : List Byte} {m : MemForm}
    (h : readMem16 mod rm bs = some (m, rest)) :
    (mod = 0 ∧ rm = 6 ∧ ∃ d, m = .direct16 d) ∨
      (¬(mod = 0 ∧ rm = 6) ∧ ∃ d, m = .based16 (Base16.ofCode rm) d) := by
  unfold readMem16 at h
  split at h
  · next hdirect =>
    obtain ⟨p, -, hp⟩ := Option.map_eq_some_iff.mp h
    cases hp
    exact .inl ⟨hdirect.1, hdirect.2, p.1, rfl⟩
  · next hbased =>
    obtain ⟨p, -, hp⟩ := Option.map_eq_some_iff.mp h
    cases hp
    exact .inr ⟨hbased, p.1, rfl⟩

/-- The base-index parts with BP are those of r/m 2, 3 and 6. -/
theorem base16Seg_ofCode (rm : BitVec 3) :
    base16Seg (Base16.ofCode rm) = if rm = 2 ∨ rm = 3 ∨ rm = 6 then .ss else .ds := by
  revert rm
  decide

/-- Settles O25: r/m = 6 is the one code whose segment depends on mod. -/
theorem defaultSegmentsOf16BitForms : Obligations.DefaultSegmentsOf16BitForms := by
  unfold Obligations.DefaultSegmentsOf16BitForms
  intro g mod rm bs rest m _ h
  rcases readMem16_eq_some h with ⟨rfl, rfl, d, rfl⟩ | ⟨hmod, d, rfl⟩
  · rfl
  · have hsix : (rm = 6 ∧ mod ≠ 0) ↔ rm = 6 :=
      ⟨And.left, fun hrm => ⟨hrm, fun h0 => hmod ⟨h0, hrm⟩⟩⟩
    simp only [effAddr, base16Seg_ofCode, hsix]

theorem EffAddr.override_eq (e : EffAddr) (o : Option Sreg) :
    e.override o = ⟨o.getD e.seg, e.off, e.aw⟩ := by
  cases o <;> rfl

/-- Settles O27: an override gives the segment of whatever it applies to, and a string operand's offset
is the index register of the address size. -/
theorem overrideReplacesDefaultSegment : Obligations.OverrideReplacesDefaultSegment := by
  unfold Obligations.OverrideReplacesDefaultSegment
  intro s o ov ext
  refine ⟨fun x m => ⟨rfl, rfl⟩, ?_, rfl, ?_, rfl, ?_, rfl⟩
  all_goals rw [stringSource, EffAddr.override_eq]; rfl

/-! ### A fetch of a byte not held (R84, D13) -/

theorem fetchByte_notHeld {s : State} {off : Nat} (hrange : off < 2 ^ s.codeSize.bits)
    (h : s.mem.read (s.linear .cs (BitVec.ofNat 32 off)).toNat = none) :
    fetchByte s off = .error (.fault (.notHeld (s.linear .cs (BitVec.ofNat 32 off)))) := by
  simp [fetchByte, hrange, h]

/-- What stops the fetch of the first byte is the outcome of the step. -/
theorem step_of_fetchByte_error {s : State} {stop : Stop}
    (h : fetchByte s s.pc.toNat = .error stop) : step s = stop.outcome := by
  have hfetched : s.fetched = ([], some stop) := by
    simp [State.fetched, maxInstrLen, fetchWindow, h]
  simp [step, hfetched, decode, readPrefixes, decodeStop]

/-- Settles O53. -/
theorem fetchOfAnUnheldByteIsStuck : Obligations.FetchOfAnUnheldByteIsStuck := by
  unfold Obligations.FetchOfAnUnheldByteIsStuck
  intro s hrange hread
  have hlinear : s.linear .cs (BitVec.ofNat 32 s.pc.toNat) = s.bases.cs + s.pc := by
    simp [State.linear, SegBases.get]
  have hstop := fetchByte_notHeld hrange (by rwa [hlinear])
  rw [step_of_fetchByte_error hstop, hlinear]
  rfl

end Sys2Proof.Machine
end

section
/-! PROOFS. The statements of 30_encoding: decoding and encoding, addressing forms, the Opcode column,
R131's pseudocode and R132's table, codes and sizes, immediates, relative targets, the descriptor table
registers, the refusals, and the launch conditions that every step keeps. What each reader can do is
said once, mostly by an equivalence, and the statements are read off it. -/

namespace Sys2Proof

/-! ### Instructions and their bytes (R107, R113, R161) -/

/-- Settles O2: the decoder's equivalence, from the bytes to the instruction. -/
theorem decodeEncodeRoundTrip : Obligations.DecodeEncodeRoundTrip :=
  fun _ _ hwf => decode_eq_ok_iff.mpr ⟨hwf, rfl⟩

/-- Settles O3: the same equivalence, from the instruction to the bytes. -/
theorem decodedBytesEncodeBack : Obligations.DecodedBytesEncodeBack :=
  fun _ _ _ h => decode_eq_ok_iff.mp h

theorem isOpcodeByte_iff {b : Byte} : isOpcodeByte b = true ↔ Prefix.ofByte b = none :=
  beq_iff_eq

/-- Prefixes that are not accepted are refused at the first whose group is seen already: that group
stands twice among the groups seen and the groups of the prefixes. -/
theorem readPrefixes_repeated {seen : List PrefixGroup} {ps : List Prefix}
    (h : prefixesOk seen ps = false) (tail : List Byte) :
    ∃ g, 2 ≤ (seen ++ ps.map Prefix.group).count g ∧
      readPrefixes seen (ps.map Prefix.byte ++ tail) = .error (.repeatedPrefixGroup g) := by
  induction ps generalizing seen with
  | nil => cases h
  | cons p ps ih =>
    by_cases hseen : p.group ∈ seen
    · refine ⟨p.group, ?_, by simp [readPrefixes, hseen]⟩
      have hcount := List.count_pos_iff.mpr hseen
      simp only [List.map_cons, List.count_append, List.count_cons_self]
      omega
    · have hrest : prefixesOk (p.group :: seen) ps = false := by simpa [prefixesOk, hseen] using h
      obtain ⟨g, hcount, hread⟩ := ih hrest
      refine ⟨g, ?_, by simp [readPrefixes, hseen, hread]⟩
      rwa [List.map_cons, List.perm_middle.count_eq]

/-- Settles O4: without a repeated group the prefixes are accepted, with one they are not. -/
theorem prefixesInAnyOrderOnePerGroup : Obligations.PrefixesInAnyOrderOnePerGroup := by
  unfold Obligations.PrefixesInAnyOrderOnePerGroup
  intro ps op rest hop
  have hok : prefixesOk [] ps = true ↔ (ps.map Prefix.group).Nodup := by simp [prefixesOk_iff]
  refine ⟨fun hnodup => ?_, fun hrep => ?_⟩
  · exact readPrefixes_eq_ok_iff.mpr ⟨rfl, hok.mpr hnodup, isOpcodeByte_iff.mpr hop⟩
  · exact readPrefixes_repeated (Bool.eq_false_iff.mpr (mt hok.mp hrep)) (op :: rest)

/-- Where no prefixes come first, only F5 is assigned (D1). -/
theorem decode_notShown {b : Byte} (hb : Prefix.ofByte b = none) (hF5 : b ≠ 0xF5)
    (rest : List Byte) : decode (b :: rest) = .error (.opcodeNotShown b) := by
  have hread : readPrefixes [] (b :: rest) = .ok ([], b, rest) :=
    readPrefixes_eq_ok_iff.mpr ⟨rfl, rfl, isOpcodeByte_iff.mpr hb⟩
  have hasm : assemble [] b = .error (.opcodeNotShown b) := if_neg hF5
  simp [decode, hread, hasm]

/-- Settles O5: the first clause is a check of the 256 bytes. -/
theorem otherFirstBytesAreNotShown : Obligations.OtherFirstBytesAreNotShown := by
  unfold Obligations.OtherFirstBytesAreNotShown
  refine ⟨by decide, fun b rest hb hF5 => decode_notShown hb hF5 rest⟩

/-- Settles O1: the row's byte and the zero byte after it are decoded. -/
theorem tableWordsDecodeToTheirRows : Obligations.TableWordsDecodeToTheirRows := by
  unfold Obligations.TableWordsDecodeToTheirRows
  decide

/-! ### The fields and bytes of an addressing form (R117 to R128) -/

/-- The mod field of a memory form. -/
def MemForm.modField : MemForm → BitVec 2
  | .based16 _ d => d.mod
  | .direct16 _ => 0
  | .based32 _ d => d.mod
  | .direct32 _ => 0
  | .sib _ _ _ d => d.mod
  | .sibDirect _ _ _ => 0

/-- The r/m field of a memory form. -/
def MemForm.rmField : MemForm → BitVec 3
  | .based16 b _ => b.code
  | .direct16 _ => 6
  | .based32 r _ => r.code
  | .direct32 _ => 5
  | .sib _ _ _ _ => 4
  | .sibDirect _ _ _ => 4

/-- The SIB byte and the displacement of a memory form. -/
def MemForm.bytesAfter : MemForm → List Byte
  | .based16 _ d => d.encode
  | .direct16 d => toLE 2 d
  | .based32 _ d => d.encode
  | .direct32 d => toLE 4 d
  | .sib ss index base d => SIB.toByte ⟨ss, indexCode index, base.code⟩ :: d.encode
  | .sibDirect ss index d => SIB.toByte ⟨ss, indexCode index, 5⟩ :: toLE 4 d

theorem MemForm.encode_eq (reg : BitVec 3) (m : MemForm) :
    m.encode reg = ModRM.toByte ⟨m.modField, reg, m.rmField⟩ :: m.bytesAfter := by
  cases m <;> rfl

theorem mod_cases {mod : BitVec 2} (h : mod ≠ 3) : mod = 0 ∨ mod = 1 ∨ mod = 2 := by
  revert mod
  decide

theorem MemForm.modField_ne_three (m : MemForm) : m.modField ≠ 3 := by
  have h16 : ∀ d : Disp16, d.mod ≠ 3 := fun d => by cases d <;> simp [Disp16.mod]
  have h32 : ∀ d : Disp32, d.mod ≠ 3 := fun d => by cases d <;> simp [Disp32.mod]
  cases m with
  | based16 b d => exact h16 d
  | based32 r d => exact h32 d
  | sib ss index base d => exact h32 d
  | direct16 d | direct32 d | sibDirect ss index d => exact (by decide : (0 : BitVec 2) ≠ 3)

/-! Well-formedness says that the fields do not select another entry of the table. -/

theorem wellFormed_based16_iff {b : Base16} {d : Disp16} :
    (MemForm.based16 b d).wellFormed = true ↔ ¬(d.mod = 0 ∧ b.code = 6) := by
  cases d <;> cases b <;> simp [MemForm.wellFormed, Disp16.mod, Base16.code]

theorem ebp_without_disp_iff {r : Reg32} {d : Disp32} :
    (!(r == .ebp && d == .none)) = true ↔ ¬(d.mod = 0 ∧ r.code = 5) := by
  cases d <;> cases r <;> simp [Disp32.mod, Reg32.code]

theorem wellFormed_based32_iff {r : Reg32} {d : Disp32} :
    (MemForm.based32 r d).wellFormed = true ↔ r.code ≠ 4 ∧ ¬(d.mod = 0 ∧ r.code = 5) := by
  have hesp : (r != .esp) = true ↔ r.code ≠ 4 := by cases r <;> decide
  rw [MemForm.wellFormed, Bool.and_eq_true, hesp, ebp_without_disp_iff]

theorem wellFormed_sib_iff {ss : BitVec 2} {index : Option Reg32} {base : Reg32} {d : Disp32} :
    (MemForm.sib ss index base d).wellFormed = true ↔
      indexOk index = true ∧ ¬(d.mod = 0 ∧ base.code = 5) := by
  rw [MemForm.wellFormed, Bool.and_eq_true, ebp_without_disp_iff]

@[simp] theorem Base16.code_ofCode (c : BitVec 3) : (Base16.ofCode c).code = c := by
  revert c
  decide

@[simp] theorem Reg32.code_ofCode (c : BitVec 3) : (Reg32.ofCode c).code = c := by
  revert c
  decide

@[simp] theorem indexCode_indexOfCode (c : BitVec 3) : indexCode (indexOfCode c) = c := by
  revert c
  decide

@[simp] theorem indexOk_indexOfCode (c : BitVec 3) : indexOk (indexOfCode c) = true := by
  revert c
  decide

/-! ### Reading an addressing form (R117 to R132) -/

theorem readDisp16_eq_some {mod : BitVec 2} (hmod : mod ≠ 3) {bs rest : List Byte} {d : Disp16}
    (h : readDisp16 mod bs = some (d, rest)) : d.mod = mod ∧ bs = d.encode ++ rest := by
  rcases mod_cases hmod with rfl | rfl | rfl
  · cases h; exact ⟨rfl, rfl⟩
  all_goals
    obtain ⟨p, hp, hd⟩ := Option.map_eq_some_iff.mp h
    cases hd
    exact ⟨rfl, takeLE_eq_some hp⟩

theorem readDisp32_eq_some {mod : BitVec 2} (hmod : mod ≠ 3) {bs rest : List Byte} {d : Disp32}
    (h : readDisp32 mod bs = some (d, rest)) : d.mod = mod ∧ bs = d.encode ++ rest := by
  rcases mod_cases hmod with rfl | rfl | rfl
  · cases h; exact ⟨rfl, rfl⟩
  all_goals
    obtain ⟨p, hp, hd⟩ := Option.map_eq_some_iff.mp h
    cases hd
    exact ⟨rfl, takeLE_eq_some hp⟩

/-- A well-formed memory form is read from its fields and bytes at its own address size. -/
theorem readMem_bytesAfter {m : MemForm} (h : m.wellFormed = true) (rest : List Byte) :
    readMem m.addressSize m.modField m.rmField (m.bytesAfter ++ rest) = some (m, rest) := by
  cases m with
  | based16 b d =>
    change readMem16 d.mod b.code (d.encode ++ rest) = _
    rw [readMem16, if_neg (wellFormed_based16_iff.mp h), readDisp16_encode]
    simp
  | direct16 d =>
    change readMem16 0 6 (toLE 2 d ++ rest) = _
    simp [readMem16, takeLE_toLE_append 2 d]
  | based32 r d =>
    obtain ⟨hesp, hbased⟩ := wellFormed_based32_iff.mp h
    change readMem32 d.mod r.code (d.encode ++ rest) = _
    rw [readMem32, if_neg hesp, if_neg hbased, readDisp32_encode]
    simp
  | direct32 d =>
    change readMem32 0 5 (toLE 4 d ++ rest) = _
    simp [readMem32, takeLE_toLE_append 4 d]
  | sib ss index base d =>
    obtain ⟨hindex, hbased⟩ := wellFormed_sib_iff.mp h
    change readSib d.mod (SIB.toByte ⟨ss, indexCode index, base.code⟩ :: (d.encode ++ rest)) = _
    rw [readSib, SIB.ofByte_toByte, if_neg hbased, readDisp32_encode]
    simp [indexOfCode_indexCode hindex]
  | sibDirect ss index d =>
    change readSib 0 (SIB.toByte ⟨ss, indexCode index, 5⟩ :: (toLE 4 d ++ rest)) = _
    simp [readSib, indexOfCode_indexCode h, takeLE_toLE_append 4 d]

/-- What a memory form read from these fields and bytes is: well-formed, of that address size, with
those fields, and with those bytes. -/
def MemForm.ReadFrom (m : MemForm) (a : SizeAttr) (mod : BitVec 2) (rm : BitVec 3)
    (bs rest : List Byte) : Prop :=
  m.wellFormed = true ∧ m.addressSize = a ∧ m.modField = mod ∧ m.rmField = rm ∧
    bs = m.bytesAfter ++ rest

theorem readMem16_readFrom {mod : BitVec 2} (hmod : mod ≠ 3) {rm : BitVec 3} {bs rest : List Byte}
    {m : MemForm} (h : readMem16 mod rm bs = some (m, rest)) : m.ReadFrom .s16 mod rm bs rest := by
  unfold readMem16 at h
  split at h
  · next hdirect =>
    obtain ⟨p, hp, hm⟩ := Option.map_eq_some_iff.mp h
    obtain ⟨rfl, rfl⟩ := hdirect
    cases hm
    exact ⟨rfl, rfl, rfl, rfl, takeLE_eq_some hp⟩
  · next hbased =>
    obtain ⟨p, hp, hm⟩ := Option.map_eq_some_iff.mp h
    obtain ⟨rfl, hbs⟩ := readDisp16_eq_some hmod hp
    cases hm
    exact ⟨wellFormed_based16_iff.mpr (by rwa [Base16.code_ofCode]), rfl, rfl,
      Base16.code_ofCode rm, hbs⟩

theorem readSib_readFrom {mod : BitVec 2} (hmod : mod ≠ 3) {bs rest : List Byte} {m : MemForm}
    (h : readSib mod bs = some (m, rest)) : m.ReadFrom .s32 mod 4 bs rest := by
  cases bs with
  | nil => cases h
  | cons b bs =>
    have hbyte : SIB.toByte ⟨(SIB.ofByte b).ss, indexCode (indexOfCode (SIB.ofByte b).index),
        (SIB.ofByte b).base⟩ = b := by
      rw [indexCode_indexOfCode]
      exact SIB.toByte_ofByte b
    unfold readSib at h
    dsimp only at h
    split at h
    · next hdirect =>
      obtain ⟨p, hp, hm⟩ := Option.map_eq_some_iff.mp h
      obtain ⟨rfl, hbase⟩ := hdirect
      rw [hbase] at hbyte
      cases hm
      refine ⟨indexOk_indexOfCode _, rfl, rfl, rfl, ?_⟩
      rw [MemForm.bytesAfter, hbyte, List.cons_append, ← takeLE_eq_some hp]
    · next hbased =>
      obtain ⟨p, hp, hm⟩ := Option.map_eq_some_iff.mp h
      obtain ⟨rfl, hbs⟩ := readDisp32_eq_some hmod hp
      cases hm
      refine ⟨wellFormed_sib_iff.mpr ⟨indexOk_indexOfCode _, by rwa [Reg32.code_ofCode]⟩,
        rfl, rfl, rfl, ?_⟩
      rw [MemForm.bytesAfter, Reg32.code_ofCode, hbyte, List.cons_append, ← hbs]

theorem readMem32_readFrom {mod : BitVec 2} (hmod : mod ≠ 3) {rm : BitVec 3} {bs rest : List Byte}
    {m : MemForm} (h : readMem32 mod rm bs = some (m, rest)) : m.ReadFrom .s32 mod rm bs rest := by
  unfold readMem32 at h
  split at h
  · next hsib => subst hsib; exact readSib_readFrom hmod h
  · next hesp =>
    split at h
    · next hdirect =>
      obtain ⟨p, hp, hm⟩ := Option.map_eq_some_iff.mp h
      obtain ⟨rfl, rfl⟩ := hdirect
      cases hm
      exact ⟨rfl, rfl, rfl, rfl, takeLE_eq_some hp⟩
    · next hbased =>
      obtain ⟨p, hp, hm⟩ := Option.map_eq_some_iff.mp h
      obtain ⟨rfl, hbs⟩ := readDisp32_eq_some hmod hp
      cases hm
      exact ⟨wellFormed_based32_iff.mpr (by rw [Reg32.code_ofCode]; exact ⟨hesp, hbased⟩), rfl, rfl,
        Reg32.code_ofCode rm, hbs⟩

theorem readMem_eq_some_iff {a : SizeAttr} {mod : BitVec 2} (hmod : mod ≠ 3) {rm : BitVec 3}
    {bs rest : List Byte} {m : MemForm} :
    readMem a mod rm bs = some (m, rest) ↔ m.ReadFrom a mod rm bs rest := by
  constructor
  · cases a with
    | s16 => exact readMem16_readFrom hmod
    | s32 => exact readMem32_readFrom hmod
  · rintro ⟨hwf, rfl, rfl, rfl, rfl⟩
    exact readMem_bytesAfter hwf rest

theorem readRm_register (a : SizeAttr) {b : Byte} (h : (ModRM.ofByte b).mod = 3) (bs : List Byte) :
    readRm a (b :: bs) = some ((ModRM.ofByte b).reg, .reg (ModRM.ofByte b).rm, bs) :=
  if_pos h

theorem readRm_memory (a : SizeAttr) {b : Byte} (h : (ModRM.ofByte b).mod ≠ 3) (bs : List Byte) :
    readRm a (b :: bs) = (readMem a (ModRM.ofByte b).mod (ModRM.ofByte b).rm bs).map
      fun p => ((ModRM.ofByte b).reg, .mem p.1, p.2) :=
  if_neg h

/-- A form is read from bytes exactly when it is well-formed, of that address size if it is a memory
form, and the bytes begin with its own. -/
theorem readRm_eq_some_iff {a : SizeAttr} {bs rest : List Byte} {reg : BitVec 3} {f : RmForm} :
    readRm a bs = some (reg, f, rest) ↔
      f.wellFormed = true ∧ (∀ m, f = .mem m → m.addressSize = a) ∧ bs = f.encode reg ++ rest := by
  constructor
  · intro h
    cases bs with
    | nil => cases h
    | cons b bs =>
      by_cases hmod : (ModRM.ofByte b).mod = 3
      · rw [readRm_register a hmod] at h
        cases h
        refine ⟨rfl, fun m hm => (nomatch hm), ?_⟩
        rw [RmForm.encode, ← hmod, ModRM.toByte_ofByte]
        rfl
      · rw [readRm_memory a hmod] at h
        obtain ⟨⟨m, rest'⟩, hread, hform⟩ := Option.map_eq_some_iff.mp h
        cases hform
        obtain ⟨hwf, hsize, hm, hrm, hbs⟩ := (readMem_eq_some_iff hmod).mp hread
        refine ⟨hwf, fun m' hm' => RmForm.mem.inj hm' ▸ hsize, ?_⟩
        rw [RmForm.encode, MemForm.encode_eq, hm, hrm, ModRM.toByte_ofByte, hbs, List.cons_append]
  · rintro ⟨hwf, hsize, rfl⟩
    cases f with
    | reg code =>
      rw [RmForm.encode, List.singleton_append, readRm_register a (by simp), ModRM.ofByte_toByte]
    | mem m =>
      obtain rfl := hsize m rfl
      rw [RmForm.encode, MemForm.encode_eq, List.cons_append,
        readRm_memory _ (by simpa using m.modField_ne_three), ModRM.ofByte_toByte,
        readMem_bytesAfter hwf]
      rfl

/-- Settles O7: the reader's equivalence, from the bytes to the form. -/
theorem addressingFormRoundTrip : Obligations.AddressingFormRoundTrip :=
  fun _ _ _ _ hwf hsize => readRm_eq_some_iff.mpr ⟨hwf, hsize, rfl⟩

/-- Settles O8: the same equivalence, from the form to the bytes. -/
theorem addressingBytesEncodeBack : Obligations.AddressingBytesEncodeBack :=
  fun _ _ _ _ _ h => readRm_eq_some_iff.mp h

/-! ### The SIB byte (R119, R126) -/

/-- Among the 32-bit forms those with a SIB byte are the ones whose r/m field is 4. -/
theorem MemForm.hasSib_iff {m : MemForm} (hwf : m.wellFormed = true) (hsize : m.addressSize = .s32) :
    ((∃ ss i b d, m = .sib ss i b d) ∨ ∃ ss i d, m = .sibDirect ss i d) ↔ m.rmField = 4 := by
  cases m with
  | based16 b d => cases hsize
  | direct16 d => cases hsize
  | based32 r d => simpa [MemForm.rmField] using (wellFormed_based32_iff.mp hwf).1
  | direct32 d => simp [MemForm.rmField]
  | sib ss index base d => simp [MemForm.rmField]
  | sibDirect ss index d => simp [MemForm.rmField]

/-- Settles O10: the fields of the ModR/M byte are those of the form read. -/
theorem sibBytePresence : Obligations.SibBytePresence := by
  unfold Obligations.SibBytePresence
  refine ⟨fun b bs rest reg f h => ?_, fun bs rest reg f h => ?_⟩
  · obtain ⟨hwf, hsize, hbs⟩ := readRm_eq_some_iff.mp h
    cases f with
    | reg code =>
      obtain ⟨rfl, -⟩ := List.cons.inj hbs
      simp
    | mem m =>
      rw [RmForm.encode, MemForm.encode_eq] at hbs
      obtain ⟨rfl, -⟩ := List.cons.inj hbs
      have hmod := mod_cases m.modField_ne_three
      rw [ModRM.ofByte_toByte]
      simpa only [RmForm.mem.injEq, hmod, true_and] using MemForm.hasSib_iff hwf (hsize m rfl)
  · obtain ⟨-, hsize, -⟩ := readRm_eq_some_iff.mp h
    refine ⟨fun ss i b d hf => ?_, fun ss i d hf => ?_⟩
    all_goals exact absurd (hsize _ hf) (by simp [MemForm.addressSize])

/-! ### How many bytes are read (R115, R132) -/

theorem takeBytes_eq_some_iff {n : Nat} {bs xs rest : List Byte} :
    takeBytes n bs = some (xs, rest) ↔ xs.length = n ∧ bs = xs ++ rest := by
  constructor
  · intro h
    unfold takeBytes at h
    split at h
    · next hn => cases h; simp [hn]
    · cases h
  · rintro ⟨rfl, rfl⟩
    exact takeBytes_append xs rest

/-- A reader takes exactly `n` bytes where there are so many, and fails where there are fewer. -/
def TakesBytes {α : Type} (n : Nat) (bs : List Byte) (r : Option (α × List Byte)) : Prop :=
  (n ≤ bs.length → ∃ v, r = some (v, bs.drop n)) ∧ (bs.length < n → r = none)

theorem takesBytes_zero {α : Type} (v : α) (bs : List Byte) : TakesBytes 0 bs (some (v, bs)) :=
  ⟨fun _ => ⟨v, rfl⟩, fun h => absurd h (Nat.not_lt_zero _)⟩

theorem takesBytes_takeLE (n : Nat) (bs : List Byte) : TakesBytes n bs (takeLE n bs) := by
  refine ⟨fun h => ⟨ofLE n (bs.take n), ?_⟩, fun h => ?_⟩
  · rw [takeLE, takeBytes, if_pos h]; rfl
  · rw [takeLE, takeBytes, if_neg (Nat.not_le.mpr h)]; rfl

theorem TakesBytes.map {α β : Type} {n : Nat} {bs : List Byte} {r : Option (α × List Byte)}
    (h : TakesBytes n bs r) (f : α → β) : TakesBytes n bs (r.map fun p => (f p.1, p.2)) := by
  obtain ⟨htake, hfail⟩ := h
  refine ⟨fun hn => ?_, fun hn => by rw [hfail hn]; rfl⟩
  obtain ⟨v, rfl⟩ := htake hn
  exact ⟨f v, rfl⟩

theorem TakesBytes.cons {α : Type} {n : Nat} {bs : List Byte} {r : Option (α × List Byte)}
    (h : TakesBytes n bs r) (b : Byte) : TakesBytes (1 + n) (b :: bs) r := by
  obtain ⟨htake, hfail⟩ := h
  rw [TakesBytes, List.length_cons, Nat.add_comm 1 n, List.drop_succ_cons]
  exact ⟨fun hn => htake (by omega), fun hn => hfail (by omega)⟩

/-- The bytes of a displacement by mod, `wide` of them at mod = 10 (R121, R124). -/
def dispBytes (wide : Nat) (mod : BitVec 2) : Nat :=
  match mod.toNat with
  | 0 => 0
  | 1 => 1
  | _ => wide

theorem takesBytes_readDisp16 {mod : BitVec 2} (hmod : mod ≠ 3) (bs : List Byte) :
    TakesBytes (dispBytes 2 mod) bs (readDisp16 mod bs) := by
  rcases mod_cases hmod with rfl | rfl | rfl
  · exact takesBytes_zero _ bs
  · exact (takesBytes_takeLE 1 bs).map Disp16.disp8
  · exact (takesBytes_takeLE 2 bs).map Disp16.disp16

theorem takesBytes_readDisp32 {mod : BitVec 2} (hmod : mod ≠ 3) (bs : List Byte) :
    TakesBytes (dispBytes 4 mod) bs (readDisp32 mod bs) := by
  rcases mod_cases hmod with rfl | rfl | rfl
  · exact takesBytes_zero _ bs
  · exact (takesBytes_takeLE 1 bs).map Disp32.disp8
  · exact (takesBytes_takeLE 4 bs).map Disp32.disp32

/-- The bytes of a 16-bit memory form after its ModR/M byte. -/
def mem16Bytes (mod : BitVec 2) (rm : BitVec 3) : Nat :=
  if mod = 0 ∧ rm = 6 then 2 else dispBytes 2 mod

/-- The SIB byte and the displacement after it, `next` being the SIB byte where there is one. -/
def sibBytes (mod : BitVec 2) (next : Option Byte) : Nat :=
  1 + if mod = 0 ∧ next.map (fun b => (SIB.ofByte b).base) = some 5 then 4 else dispBytes 4 mod

/-- The bytes of a 32-bit memory form after its ModR/M byte. -/
def mem32Bytes (mod : BitVec 2) (rm : BitVec 3) (next : Option Byte) : Nat :=
  if rm = 4 then sibBytes mod next
  else if mod = 0 ∧ rm = 5 then 4 else dispBytes 4 mod

theorem takesBytes_readMem16 {mod : BitVec 2} (hmod : mod ≠ 3) (rm : BitVec 3) (bs : List Byte) :
    TakesBytes (mem16Bytes mod rm) bs (readMem16 mod rm bs) := by
  unfold mem16Bytes readMem16
  split
  · exact (takesBytes_takeLE 2 bs).map MemForm.direct16
  · exact (takesBytes_readDisp16 hmod bs).map (MemForm.based16 _)

theorem takesBytes_readSib {mod : BitVec 2} (hmod : mod ≠ 3) (bs : List Byte) :
    TakesBytes (sibBytes mod bs.head?) bs (readSib mod bs) := by
  cases bs with
  | nil => exact ⟨fun h => absurd h (by simp [sibBytes]), fun _ => rfl⟩
  | cons b bs =>
    have hbase : (b :: bs).head?.map (fun b => (SIB.ofByte b).base) = some 5 ↔
        (SIB.ofByte b).base = 5 := by simp
    unfold sibBytes readSib
    simp only [hbase]
    split
    · exact ((takesBytes_takeLE 4 bs).map (MemForm.sibDirect _ _)).cons b
    · exact ((takesBytes_readDisp32 hmod bs).map (MemForm.sib _ _ _)).cons b

theorem takesBytes_readMem32 {mod : BitVec 2} (hmod : mod ≠ 3) (rm : BitVec 3) (bs : List Byte) :
    TakesBytes (mem32Bytes mod rm bs.head?) bs (readMem32 mod rm bs) := by
  unfold mem32Bytes readMem32
  split
  · exact takesBytes_readSib hmod bs
  · split
    · exact (takesBytes_takeLE 4 bs).map MemForm.direct32
    · exact (takesBytes_readDisp32 hmod bs).map (MemForm.based32 _)

/-! ### The Opcode column (R107, R115, R140 to R145) -/

theorem plusCodeOf_eq_some_iff {f : OpcodeForm} {b : Byte} {c : BitVec 3} :
    plusCodeOf f b = some c ↔ b = f.opcode + c.setWidth 8 := by
  have key : ∀ (x : Byte) (c : BitVec 3),
      (if x.toNat < 8 then some (x.setWidth 3) else none) = some c ↔ x = c.setWidth 8 := by decide
  rw [plusCodeOf, key, BitVec.sub_eq_iff_eq_add, BitVec.add_comm]

/-- The last opcode byte of a form and the register code that stands in it (R145). -/
def OpcodeForm.LastByte (f : OpcodeForm) (op : Byte) (plus : Option (BitVec 3)) : Prop :=
  (f.plusReg = false → op = f.opcode ∧ plus = none) ∧
    (f.plusReg = true → ∃ c, plus = some c ∧ op = f.opcode + c.setWidth 8)

/-- The bytes of a well-formed form of that address size, with that reg field. -/
def AddressingBytesOf (a : SizeAttr) (addr : List Byte) (r : BitVec 3) (m : RmForm) : Prop :=
  addr = m.encode r ∧ m.wellFormed = true ∧ ∀ x, m = .mem x → x.addressSize = a

/-- The addressing bytes for a use of the ModR/M byte, with the fields they give (R141, R142). -/
def AddressingBytes (u : ModRmUse) (a : SizeAttr) (addr : List Byte) (reg : Option (BitVec 3))
    (rm : Option RmForm) : Prop :=
  (u = .none → addr = [] ∧ rm = none ∧ reg = none) ∧
  (∀ d, u = .digit d → ∃ m, rm = some m ∧ reg = none ∧ AddressingBytesOf a addr d m) ∧
  (u = .slashR → ∃ m r, rm = some m ∧ reg = some r ∧ AddressingBytesOf a addr r m)

theorem readOpcode_eq_some_iff {f : OpcodeForm} {bs rest : List Byte} {plus : Option (BitVec 3)} :
    readOpcode f bs = some (plus, rest) ↔
      ∃ op, bs = f.lead ++ op :: rest ∧ f.LastByte op plus := by
  constructor
  · intro h
    unfold readOpcode at h
    split at h
    · cases h
    · next lead rest' htake =>
      obtain ⟨-, rfl⟩ := takeBytes_eq_some_iff.mp htake
      split at h
      · next hlead =>
        subst hlead
        split at h
        · cases h
        · next op rest'' =>
          split at h
          · next hplus =>
            obtain ⟨c, hc, hp⟩ := Option.map_eq_some_iff.mp h
            cases hp
            exact ⟨op, rfl, fun hno => absurd hplus (by simp [hno]),
              fun _ => ⟨c, rfl, plusCodeOf_eq_some_iff.mp hc⟩⟩
          · next hplus =>
            split at h
            · next hop =>
              cases h
              exact ⟨op, rfl, fun _ => ⟨hop, rfl⟩, fun hyes => absurd hyes hplus⟩
            · cases h
      · cases h
  · rintro ⟨op, rfl, hfixed, hplus⟩
    simp only [readOpcode, takeBytes_append, if_true]
    cases h : f.plusReg with
    | false =>
      obtain ⟨rfl, rfl⟩ := hfixed h
      simp
    | true =>
      obtain ⟨c, rfl, hop⟩ := hplus h
      simp [plusCodeOf_eq_some_iff.mpr hop]

theorem addressingBytes_none_iff {a : SizeAttr} {addr : List Byte} {reg : Option (BitVec 3)}
    {rm : Option RmForm} :
    AddressingBytes .none a addr reg rm ↔ addr = [] ∧ rm = none ∧ reg = none := by
  simp [AddressingBytes]

theorem addressingBytes_digit_iff {a : SizeAttr} {d : BitVec 3} {addr : List Byte}
    {reg : Option (BitVec 3)} {rm : Option RmForm} :
    AddressingBytes (.digit d) a addr reg rm ↔
      ∃ m, rm = some m ∧ reg = none ∧ AddressingBytesOf a addr d m := by
  simp [AddressingBytes]

theorem addressingBytes_slashR_iff {a : SizeAttr} {addr : List Byte} {reg : Option (BitVec 3)}
    {rm : Option RmForm} :
    AddressingBytes .slashR a addr reg rm ↔
      ∃ m r, rm = some m ∧ reg = some r ∧ AddressingBytesOf a addr r m := by
  simp [AddressingBytes]

theorem readRm_eq_some_iff_addressingBytesOf {a : SizeAttr} {bs rest : List Byte} {r : BitVec 3}
    {m : RmForm} :
    readRm a bs = some (r, m, rest) ↔ ∃ addr, bs = addr ++ rest ∧ AddressingBytesOf a addr r m := by
  rw [readRm_eq_some_iff]
  constructor
  · rintro ⟨hwf, hsize, hbs⟩
    exact ⟨_, hbs, rfl, hwf, hsize⟩
  · rintro ⟨addr, hbs, rfl, hwf, hsize⟩
    exact ⟨hwf, hsize, hbs⟩

theorem readModRmUse_eq_some_iff {a : SizeAttr} {u : ModRmUse} {bs rest : List Byte}
    {reg : Option (BitVec 3)} {rm : Option RmForm} :
    readModRmUse a u bs = some (reg, rm, rest) ↔
      ∃ addr, bs = addr ++ rest ∧ AddressingBytes u a addr reg rm := by
  cases u with
  | none =>
    simp only [addressingBytes_none_iff]
    constructor
    · intro h
      cases h
      exact ⟨[], rfl, rfl, rfl, rfl⟩
    · rintro ⟨addr, rfl, rfl, rfl, rfl⟩
      rfl
  | digit d =>
    simp only [addressingBytes_digit_iff]
    constructor
    · intro h
      unfold readModRmUse at h
      dsimp only at h
      split at h
      · cases h
      · next r m rest' hread =>
        split at h
        · next hr =>
          cases h
          obtain ⟨addr, hbs, haddr⟩ := readRm_eq_some_iff_addressingBytesOf.mp hread
          exact ⟨addr, hbs, m, rfl, rfl, hr ▸ haddr⟩
        · cases h
    · rintro ⟨addr, hbs, m, rfl, rfl, haddr⟩
      simp [readModRmUse, readRm_eq_some_iff_addressingBytesOf.mpr ⟨addr, hbs, haddr⟩]
  | slashR =>
    simp only [addressingBytes_slashR_iff]
    constructor
    · intro h
      obtain ⟨⟨r, m, rest'⟩, hread, hp⟩ := Option.map_eq_some_iff.mp h
      cases hp
      obtain ⟨addr, hbs, haddr⟩ := readRm_eq_some_iff_addressingBytesOf.mp hread
      exact ⟨addr, hbs, m, r, rfl, rfl, haddr⟩
    · rintro ⟨addr, hbs, m, r, rfl, rfl, haddr⟩
      simp [readModRmUse, readRm_eq_some_iff_addressingBytesOf.mpr ⟨addr, hbs, haddr⟩]

theorem readForm_eq_some_iff {a : SizeAttr} {f : OpcodeForm} {bs rest : List Byte}
    {p : ParsedForm} :
    readForm a f bs = some (p, rest) ↔
      p.trail.length = f.trail.bytes ∧ ∃ op addr, bs = f.lead ++ op :: addr ++ p.trail ++ rest ∧
        f.LastByte op p.plusCode ∧ AddressingBytes f.modrm a addr p.regField p.rm := by
  constructor
  · intro h
    unfold readForm at h
    split at h
    · cases h
    · next plus bs1 hop =>
      split at h
      · cases h
      · next reg rm bs2 hmodrm =>
        obtain ⟨⟨trail, rest'⟩, htrail, hp⟩ := Option.map_eq_some_iff.mp h
        cases hp
        obtain ⟨op, rfl, hlast⟩ := readOpcode_eq_some_iff.mp hop
        obtain ⟨addr, rfl, haddr⟩ := readModRmUse_eq_some_iff.mp hmodrm
        obtain ⟨hlen, rfl⟩ := takeBytes_eq_some_iff.mp htrail
        exact ⟨hlen, op, addr, by simp, hlast, haddr⟩
  · rintro ⟨hlen, op, addr, hbs, hlast, haddr⟩
    have hop : readOpcode f bs = some (p.plusCode, addr ++ (p.trail ++ rest)) :=
      readOpcode_eq_some_iff.mpr ⟨op, by simp [hbs], hlast⟩
    have hmodrm := readModRmUse_eq_some_iff (rest := p.trail ++ rest).mpr ⟨addr, rfl, haddr⟩
    have htrail := takeBytes_eq_some_iff (rest := rest).mpr ⟨hlen, rfl⟩
    simp [readForm, hop, hmodrm, htrail]

/-- Settles O11: the conjuncts on the opcode byte and on the addressing bytes are `LastByte` and
`AddressingBytes` unfolded. -/
theorem opcodeFormTakesItsFieldsInOrder : Obligations.OpcodeFormTakesItsFieldsInOrder := by
  unfold Obligations.OpcodeFormTakesItsFieldsInOrder
  intro a f bs rest p
  simp only [readForm_eq_some_iff, OpcodeForm.LastByte, AddressingBytes,
    AddressingBytesOf, and_assoc]

/-! ### The value of a field of bytes (R146) -/

/-- The byte at the lowest address is the low-order one. -/
theorem ofLE_cons (n : Nat) (b : Byte) (bs : List Byte) :
    ofLE (n + 1) (b :: bs) = (ofLE n bs ++ b : BitVec (8 * n + 8)) := by
  apply BitVec.eq_of_getLsbD_eq
  intro i hi
  rw [getLsbD_ofLE, testBit_leToNat_cons, BitVec.getLsbD_append, getLsbD_ofLE]
  by_cases h : i < 8
  · simp [h, hi]
  · simp [h, show i - 8 < 8 * n by omega, hi]

theorem ofLE_one (b : Byte) : ofLE 1 [b] = b := by
  have hnil : (ofLE 0 [] ++ b : BitVec (8 * 0 + 8)) = b := BitVec.zero_width_append _ b
  rw [ofLE_cons, hnil]

theorem ofLE_two (b0 b1 : Byte) : ofLE 2 [b0, b1] = b1 ++ b0 := by
  rw [ofLE_cons, ofLE_one]

theorem ofLE_four (b0 b1 b2 b3 : Byte) : ofLE 4 [b0, b1, b2, b3] = b3 ++ b2 ++ b1 ++ b0 := by
  rw [ofLE_cons, ofLE_cons, ofLE_two]

end Sys2Proof

namespace Sys2Proof.Machine

/-! ### Segment overrides (R112) -/

theorem mem_of_segOverride_eq_some {ps : List Prefix} {x : Sreg} (h : segOverride ps = some x) :
    .segment x ∈ ps := by
  induction ps with
  | nil => cases h
  | cons p ps ih =>
    cases p with
    | segment y => cases h; exact List.mem_cons_self
    | rep | repne | lock | operandSize | addressSize => exact List.mem_cons_of_mem _ (ih h)

theorem segOverride_ne_none {ps : List Prefix} {x : Sreg} (h : .segment x ∈ ps) :
    segOverride ps ≠ none := by
  induction ps with
  | nil => cases h
  | cons p ps ih =>
    cases p with
    | segment y => simp [segOverride]
    | rep | repne | lock | operandSize | addressSize => exact ih (by simpa using h)

/-- The one override among some prefixes is the override they select. -/
theorem segOverride_eq_some {ps : List Prefix} {x : Sreg} (hmem : .segment x ∈ ps)
    (honly : ∀ y, .segment y ∈ ps → y = x) : segOverride ps = some x := by
  obtain ⟨y, hy⟩ := Option.ne_none_iff_exists'.mp (segOverride_ne_none hmem)
  rw [hy, honly y (mem_of_segOverride_eq_some hy)]

theorem segOverride_eq_none {ps : List Prefix} (h : ∀ y, .segment y ∉ ps) :
    segOverride ps = none :=
  Option.eq_none_iff_forall_ne_some.mpr fun y hy => h y (mem_of_segOverride_eq_some hy)

/-- Settles O6: an override's byte is the one of its segment, and an instruction's only override is
found wherever it stands. -/
theorem segmentOverrideBytes : Obligations.SegmentOverrideBytes := by
  unfold Obligations.SegmentOverrideBytes
  refine ⟨rfl, rfl, rfl, rfl, rfl, rfl, fun b x hb => ?_, fun ps x hmem honly s e => ?_,
    fun ps hnone s e => ?_⟩
  · rw [← Prefix.byte_of_ofByte hb]
    cases x <;> decide
  · have hseg : (attrsOf s ps).segOverride = some x := segOverride_eq_some hmem honly
    exact ⟨hseg, by rw [hseg]; rfl⟩
  · have hseg : (attrsOf s ps).segOverride = none := segOverride_eq_none hnone
    exact ⟨hseg, by rw [hseg]; rfl⟩

/-! ### Segment register codes and size attributes (R101, R103, R159) -/

/-- Settles O13. -/
theorem segmentRegisterCodes : Obligations.SegmentRegisterCodes :=
  ⟨rfl, rfl, rfl, rfl, rfl, rfl⟩

/-- Settles O16: each size is the D-bit's, turned over by its own byte, 66H or 67H. -/
theorem effectiveSizesFollowTable17_1 : Obligations.EffectiveSizesFollowTable17_1 := by
  unfold Obligations.EffectiveSizesFollowTable17_1
  intro ps d
  rw [operandSize, addressSize]
  cases d <;> cases ps.contains .operandSize <;> cases ps.contains .addressSize <;> rfl

theorem attrsOf_nil (s : State) : attrsOf s [] = ⟨s.codeSize, s.codeSize, none⟩ := by
  simp [attrsOf, operandSize, addressSize, segOverride, State.codeSize]

/-- Settles O17: without prefixes both sizes are the code segment's default. -/
theorem defaultSizesByModeAndDBit : Obligations.DefaultSizesByModeAndDBit := by
  unfold Obligations.DefaultSizesByModeAndDBit
  intro s
  rw [attrsOf_nil, State.codeSize]
  refine ⟨fun hmode hd => ?_, fun hmode hd => ?_, fun hmode => ?_⟩
  · have hD : s.codeD = false := by simp [State.codeD, hd]
    rw [hD]; rfl
  · have hD : s.codeD = true := by simp [State.codeD, hmode, hd]
    rw [hD]; rfl
  · have hD : s.codeD = false := by rcases hmode with hmode | hmode <;> simp [State.codeD, hmode]
    rw [hD]; exact ⟨rfl, rfl⟩

/-! ### The table of the bytes after the ModR/M byte (R132) -/

theorem bytesAfterModRM_register (a : SizeAttr) {b : Byte} (h : (ModRM.ofByte b).mod = 3)
    (next : Option Byte) : bytesAfterModRM a b next = 0 := by
  have hmod : (b.extractLsb' 6 2).toNat = 3 := congrArg BitVec.toNat h
  cases a <;> simp [bytesAfterModRM, hmod]

theorem rm_ofByte_eq_iff (b : Byte) (c : BitVec 3) :
    (ModRM.ofByte b).rm = c ↔ (b.extractLsb' 0 3).toNat = c.toNat :=
  BitVec.toNat_inj.symm

theorem bytesAfterModRM_s16 {b : Byte} (h : (ModRM.ofByte b).mod ≠ 3) (next : Option Byte) :
    bytesAfterModRM .s16 b next = mem16Bytes (ModRM.ofByte b).mod (ModRM.ofByte b).rm := by
  have hmodNat : (b.extractLsb' 6 2).toNat = (ModRM.ofByte b).mod.toNat := rfl
  rcases mod_cases h with hmod | hmod | hmod
  all_goals
    rw [hmod] at hmodNat
    simp [bytesAfterModRM, hmodNat, mem16Bytes, dispBytes, hmod, rm_ofByte_eq_iff]

theorem bytesAfterModRM_s32 {b : Byte} (h : (ModRM.ofByte b).mod ≠ 3) (next : Option Byte) :
    bytesAfterModRM .s32 b next = mem32Bytes (ModRM.ofByte b).mod (ModRM.ofByte b).rm next := by
  have hmodNat : (b.extractLsb' 6 2).toNat = (ModRM.ofByte b).mod.toNat := rfl
  rcases mod_cases h with hmod | hmod | hmod
  all_goals
    rw [hmod] at hmodNat
    simp [bytesAfterModRM, hmodNat, mem32Bytes, sibBytes, SIB.ofByte, dispBytes, hmod,
      rm_ofByte_eq_iff]

/-- Settles O9: every reader takes the bytes that the table counts for its fields. -/
theorem bytesAfterModRmFollowTheTable : Obligations.BytesAfterModRmFollowTheTable := by
  unfold Obligations.BytesAfterModRmFollowTheTable
  intro a b bs
  by_cases hmod : (ModRM.ofByte b).mod = 3
  · rw [bytesAfterModRM_register a hmod, readRm_register a hmod]
    exact ⟨fun _ => ⟨_, rfl⟩, fun h => absurd h (Nat.not_lt_zero _)⟩
  · have htakes : TakesBytes (bytesAfterModRM a b bs.head?) bs
        (readMem a (ModRM.ofByte b).mod (ModRM.ofByte b).rm bs) := by
      cases a with
      | s16 => rw [bytesAfterModRM_s16 hmod]; exact takesBytes_readMem16 hmod _ bs
      | s32 => rw [bytesAfterModRM_s32 hmod]; exact takesBytes_readMem32 hmod _ bs
    obtain ⟨htake, hfail⟩ := htakes
    rw [readRm_memory a hmod]
    refine ⟨fun hn => ?_, fun hn => by rw [hfail hn]; rfl⟩
    obtain ⟨m, hread⟩ := htake hn
    exact ⟨.mem m, by rw [hread]; rfl⟩

/-! ### R131's pseudocode (R79, R80, R121 to R131) -/

/-- A field read after `skip` bytes is R131's displacement there, and the bytes consumed are counted
from the front. -/
theorem map_takeLE_drop {α β : Type} {bs : List Byte} {skip : Nat} (hskip : skip ≤ bs.length)
    (n : Nat) (form : BitVec (8 * n) → α) (result : α → Nat → β) :
    ((takeLE n (bs.drop skip)).map fun p => (form p.1, p.2)).map
        (fun p => result p.1 (bs.length - p.2.length)) =
      (dispAt bs skip n).map fun d => result (form d) (skip + n) := by
  have hfits : n ≤ (bs.drop skip).length ↔ skip + n ≤ bs.length := by
    rw [List.length_drop]
    omega
  simp only [takeLE, takeBytes, dispAt, hfits]
  split
  · next hlen => simp [Nat.sub_sub_self hlen]
  · rfl

/-- R131's `(b, seg)` is the sum and the segment of the base-index part of r/m, but where disp16 stands
alone. -/
theorem r131Base16_eq (g : Gprs) {mod : BitVec 2} {rm : BitVec 3} (h : ¬(mod = 0 ∧ rm = 6)) :
    r131Base16 g mod.toNat rm.toNat =
      (base16Value g (Base16.ofCode rm), base16Seg (Base16.ofCode rm)) := by
  have hsix : rm = 6 → mod.toNat ≠ 0 := fun hrm hmod => h ⟨BitVec.eq_of_toNat_eq hmod, hrm⟩
  by_cases hrm : rm = 6
  · rw [hrm]
    exact if_neg (hsix hrm)
  · have hother : rm = 0 ∨ rm = 1 ∨ rm = 2 ∨ rm = 3 ∨ rm = 4 ∨ rm = 5 ∨ rm = 7 := by
      clear h hsix
      revert rm
      decide
    rcases hother with rfl | rfl | rfl | rfl | rfl | rfl | rfl
    all_goals rfl

/-- What the machine reads as a memory form, as an address with the bytes consumed. -/
def formAddress (g : Gprs) (m : MemForm) (consumed : Nat) : AddrResult :=
  .address (effAddr g m) consumed

theorem r131Addr16_eq (g : Gprs) {mod : BitVec 2} (hmod : mod ≠ 3) (rm : BitVec 3) (b : Byte)
    (bs : List Byte) :
    (readMem16 mod rm bs).map (fun p => formAddress g p.1 ((b :: bs).length - p.2.length)) =
      r131Addr16 g mod.toNat rm.toNat (b :: bs) := by
  have hskip : 1 ≤ (b :: bs).length := Nat.succ_pos _
  by_cases hdirect : mod = 0 ∧ rm = 6
  · obtain ⟨rfl, rfl⟩ := hdirect
    have hread := map_takeLE_drop hskip 2 MemForm.direct16 (formAddress g)
    simpa [r131Addr16, r131Base16, readMem16, formAddress, effAddr] using hread
  · have hbase := r131Base16_eq g hdirect
    have hdisp : (readMem16 mod rm bs).map
          (fun p => formAddress g p.1 ((b :: bs).length - p.2.length)) =
        (readDisp16 mod bs).map fun p =>
          formAddress g (.based16 (Base16.ofCode rm) p.1) ((b :: bs).length - p.2.length) := by
      rw [readMem16, if_neg hdirect, Option.map_map]
      rfl
    rw [hdisp]
    unfold r131Addr16
    rw [hbase]
    rcases mod_cases hmod with rfl | rfl | rfl
    · have hrm : rm.toNat ≠ 6 := fun h => hdirect ⟨rfl, BitVec.eq_of_toNat_eq h⟩
      refine Eq.trans ?_ (if_neg hrm).symm
      simp [readDisp16, formAddress, effAddr, disp16Value]
    · exact map_takeLE_drop hskip 1 Disp16.disp8
        fun d => formAddress g (.based16 (Base16.ofCode rm) d)
    · exact map_takeLE_drop hskip 2 Disp16.disp16
        fun d => formAddress g (.based16 (Base16.ofCode rm) d)

theorem r131Seg32_eq (rm : BitVec 3) : r131Seg32 rm.toNat = defaultSeg32 (Reg32.ofCode rm) := by
  revert rm
  decide

/-- R131 completes a 32-bit address with the displacement that mod selects. -/
theorem r131Finish32_eq {mod : BitVec 2} (hmod : mod ≠ 3) (seg : Sreg) (base : Word32)
    {bs : List Byte} {skip : Nat} (hskip : skip ≤ bs.length) :
    (readDisp32 mod (bs.drop skip)).map
        (fun p => AddrResult.address ⟨seg, base + disp32Value p.1, .s32⟩ (bs.length - p.2.length)) =
      r131Finish32 seg base mod.toNat false bs skip := by
  rcases mod_cases hmod with rfl | rfl | rfl
  · simp [readDisp32, r131Finish32, disp32Value, Nat.sub_sub_self hskip]
  · exact map_takeLE_drop hskip 1 Disp32.disp8
      fun d => AddrResult.address ⟨seg, base + disp32Value d, .s32⟩
  · exact map_takeLE_drop hskip 4 Disp32.disp32
      fun d => AddrResult.address ⟨seg, base + disp32Value d, .s32⟩

/-- Shifting by ss is multiplying by 2^ss. -/
theorem scaledIndex_some (g : Gprs) (ss : BitVec 2) (r : Reg32) :
    scaledIndex g ss (some r) = g.get r * BitVec.ofNat 32 (2 ^ ss.toNat) := by
  apply BitVec.eq_of_toNat_eq
  simp [scaledIndex, Nat.shiftLeft_eq]

theorem scaledIndex_indexOfCode (g : Gprs) (ss : BitVec 2) (c : BitVec 3) :
    scaledIndex g ss (indexOfCode c) =
      if c.toNat = 4 then 0 else g.get (Reg32.ofCode c) * BitVec.ofNat 32 (2 ^ ss.toNat) := by
  have hnone : c = 4 ↔ c.toNat = 4 := BitVec.toNat_inj.symm
  rw [indexOfCode]
  simp only [hnone]
  split
  · rfl
  · exact scaledIndex_some g ss _

/-- R131's branch with a SIB byte, in the machine's segment and scaled index. -/
theorem r131Sib_eq_scaledIndex (g : Gprs) (mod : Nat) (sib : Byte) (bs : List Byte) :
    r131Sib g mod sib bs =
      let x := scaledIndex g (SIB.ofByte sib).ss (indexOfCode (SIB.ofByte sib).index)
      let base := Reg32.ofCode (SIB.ofByte sib).base
      if (SIB.ofByte sib).base.toNat = 5 ∧ mod = 0 then r131Finish32 .ds (0 + x) mod true bs 2
      else r131Finish32 (defaultSeg32 base) (g.get base + x) mod false bs 2 := by
  dsimp only
  rw [scaledIndex_indexOfCode, ← r131Seg32_eq]
  rfl

theorem r131Sib_eq (g : Gprs) {mod : BitVec 2} (hmod : mod ≠ 3) (b sib : Byte) (bs : List Byte) :
    (readSib mod (sib :: bs)).map
        (fun p => formAddress g p.1 ((b :: sib :: bs).length - p.2.length)) =
      r131Sib g mod.toNat sib (b :: sib :: bs) := by
  have hskip : 2 ≤ (b :: sib :: bs).length := by simp
  have hdirect : (mod = 0 ∧ (SIB.ofByte sib).base = 5) ↔
      (SIB.ofByte sib).base.toNat = 5 ∧ mod.toNat = 0 := by
    rw [and_comm, ← BitVec.toNat_inj, ← BitVec.toNat_inj]
    rfl
  rw [r131Sib_eq_scaledIndex, readSib]
  simp only [hdirect]
  split
  · next hbase =>
    rw [hbase.2]
    have hread := map_takeLE_drop hskip 4
      (MemForm.sibDirect (SIB.ofByte sib).ss (indexOfCode (SIB.ofByte sib).index)) (formAddress g)
    simpa [r131Finish32, formAddress, effAddr] using hread
  · rw [Option.map_map]
    exact r131Finish32_eq hmod _ _ hskip

theorem r131Addr32_eq (g : Gprs) {mod : BitVec 2} (hmod : mod ≠ 3) (rm : BitVec 3) (b : Byte)
    (bs : List Byte) :
    (readMem32 mod rm bs).map (fun p => formAddress g p.1 ((b :: bs).length - p.2.length)) =
      r131Addr32 g mod.toNat rm (b :: bs) := by
  have hskip : 1 ≤ (b :: bs).length := Nat.succ_pos _
  unfold readMem32 r131Addr32
  by_cases hsib : rm = 4
  · subst hsib
    cases bs with
    | nil => rfl
    | cons sib bs => exact r131Sib_eq g hmod b sib bs
  · have hsibNat : rm.toNat ≠ 4 := fun h => hsib (BitVec.eq_of_toNat_eq h)
    rw [if_neg hsib, if_pos hsibNat]
    by_cases hdirect : mod = 0 ∧ rm = 5
    · obtain ⟨rfl, rfl⟩ := hdirect
      have hread := map_takeLE_drop hskip 4 MemForm.direct32 (formAddress g)
      simpa [r131Finish32, formAddress, effAddr] using hread
    · have hdirectNat : ¬(mod.toNat = 0 ∧ rm.toNat = 5) := fun ⟨h0, h5⟩ =>
        hdirect ⟨BitVec.eq_of_toNat_eq h0, BitVec.eq_of_toNat_eq h5⟩
      rw [if_neg hdirect, if_neg hdirectNat, r131Seg32_eq, Option.map_map]
      exact r131Finish32_eq hmod _ _ hskip

theorem r131_register (a : SizeAttr) (g : Gprs) {b : Byte} (h : (ModRM.ofByte b).mod = 3)
    (bs : List Byte) : r131 a g (b :: bs) = some (.register (ModRM.ofByte b).rm 1) :=
  if_pos (congrArg BitVec.toNat h)

theorem r131_memory (a : SizeAttr) (g : Gprs) {b : Byte} (h : (ModRM.ofByte b).mod ≠ 3)
    (bs : List Byte) :
    r131 a g (b :: bs) =
      match a with
      | .s16 => r131Addr16 g (ModRM.ofByte b).mod.toNat (ModRM.ofByte b).rm.toNat (b :: bs)
      | .s32 => r131Addr32 g (ModRM.ofByte b).mod.toNat (ModRM.ofByte b).rm (b :: bs) :=
  if_neg fun hmod => h (BitVec.eq_of_toNat_eq hmod)

/-- Settles O23: a register takes the ModR/M byte alone; a memory form is compared at its address
size. -/
theorem effectiveAddressFollowsR131 : Obligations.EffectiveAddressFollowsR131 := by
  unfold Obligations.EffectiveAddressFollowsR131
  intro a g bs
  cases bs with
  | nil => rfl
  | cons b bs =>
    by_cases hmod : (ModRM.ofByte b).mod = 3
    · rw [readRm_register a hmod, r131_register a g hmod]
      simp [addrOfForm]
    · rw [readRm_memory a hmod, r131_memory a g hmod, Option.map_map]
      cases a with
      | s16 => exact r131Addr16_eq g hmod _ b bs
      | s32 => exact r131Addr32_eq g hmod _ b bs

/-! ### Registers and scaled indices as operands (R120, R127) -/

/-- Settles O24: the first clause is the round trip of a register operand. -/
theorem mod11IsARegister : Obligations.Mod11IsARegister := by
  unfold Obligations.Mod11IsARegister
  intro a reg rm rest
  refine ⟨?_, fun s o => ⟨rfl, rfl, rfl, fun _ => rfl, fun _ => rfl,
    fun v => ⟨rfl, ?_, fun q hq => ?_⟩⟩⟩
  · exact addressingFormRoundTrip a reg (.reg rm) rest rfl fun m hm => nomatch hm
  · rw [Gprs.get_set, if_pos rfl]
  · rw [Gprs.get_set, if_neg hq.symm]

/-- Settles O26: the shift by ss is reduced modulo 2^32. -/
theorem scaledIndexByFields : Obligations.ScaledIndexByFields := by
  unfold Obligations.ScaledIndexByFields
  refine ⟨rfl, fun g ss => ⟨rfl, fun r => ?_⟩⟩
  rw [scaledIndex, BitVec.toNat_shiftLeft, Nat.shiftLeft_eq]

/-! ### Immediates (R150 to R152) -/

theorem imm8Operand_of_trail {p : ParsedForm} {b : Byte} (h : p.trail = [b]) (sz : SizeAttr) :
    imm8Operand sz p = signExtendTo sz b := by
  rw [imm8Operand, ParsedForm.trailValue, h, ofLE_one, imm8To]

theorem getLsbD_signExtendTo {sz : SizeAttr} (b : Byte) {k : Nat} (hk : k < sz.bits) :
    (signExtendTo sz b).getLsbD k = if k < 8 then b.getLsbD k else b.getLsbD 7 := by
  rw [signExtendTo, BitVec.getLsbD_signExtend, decide_eq_true hk, Bool.true_and]
  rfl

theorem immOperand_s16_of_trail {p : ParsedForm} {b0 b1 : Byte} (h : p.trail = [b0, b1]) :
    immOperand .s16 p = b1 ++ b0 := by
  rw [immOperand, ParsedForm.trailValue, h]
  exact ofLE_two b0 b1

theorem immOperand_s32_of_trail {p : ParsedForm} {b0 b1 b2 b3 : Byte}
    (h : p.trail = [b0, b1, b2, b3]) : immOperand .s32 p = b3 ++ b2 ++ b1 ++ b0 := by
  rw [immOperand, ParsedForm.trailValue, h]
  exact ofLE_four b0 b1 b2 b3

/-- A byte below a signed number of at least one bit: the upper part keeps the sign. -/
theorem toInt_append_byte {n : Nat} (hn : n ≠ 0) (x : BitVec n) (b : Byte) :
    (x ++ b).toInt = b.toNat + 256 * x.toInt := by
  rw [BitVec.toInt_append, if_neg (by simpa using hn), Int.add_comm]
  rfl

theorem toInt_append_two (b0 b1 : Byte) : (b1 ++ b0).toInt = b0.toNat + 256 * b1.toInt :=
  toInt_append_byte (by decide) b1 b0

theorem toInt_append_four (b0 b1 b2 b3 : Byte) :
    (b3 ++ b2 ++ b1 ++ b0).toInt =
      b0.toNat + 256 * b1.toNat + 65536 * b2.toNat + 16777216 * b3.toInt := by
  rw [toInt_append_byte (by decide), toInt_append_byte (by decide), toInt_append_two]
  ring

/-- Every signed number of the operand size is the operand of a trailing field with its bytes. -/
theorem immNumber_of_trail {sz : SizeAttr} {n : Int} (hlo : -2 ^ (sz.bits - 1) ≤ n)
    (hhi : n < 2 ^ (sz.bits - 1)) {p : ParsedForm}
    (h : p.trail = toLE sz.bytes (BitVec.ofInt sz.bits n)) : immNumber sz p = n := by
  rw [immNumber, immOperand_of_trail h]
  exact BitVec.toInt_ofInt_eq_self (by cases sz <;> decide) hlo hhi

/-- Settles O22: the values of one, two and four bytes, their signs, and the bytes of every number. -/
theorem immediatesAreSigned : Obligations.ImmediatesAreSigned := by
  unfold Obligations.ImmediatesAreSigned
  refine ⟨fun sz b p h => ?_, ⟨rfl, rfl, rfl, rfl⟩, fun p b0 b1 h => ?_, fun p b0 b1 b2 b3 h => ?_,
    fun p => ?_, fun n hlo hhi => ?_, fun n hlo hhi => ?_⟩
  · have hbits : 8 ≤ sz.bits := by cases sz <;> decide
    have hlo := BitVec.le_toInt b
    have hhi := BitVec.toInt_lt (x := b)
    rw [imm8Operand_of_trail h, toInt_signExtendTo b hbits]
    refine ⟨rfl, hlo, Int.le_of_lt_add_one hhi, fun k hk => ?_, fun k hk hlt => ?_⟩
    · rw [getLsbD_signExtendTo b (by omega), if_pos hk]
    · rw [getLsbD_signExtendTo b hlt, if_neg (by omega)]
  · rw [immNumber, immOperand_s16_of_trail h]
    exact ⟨rfl, toInt_append_two b0 b1⟩
  · rw [immNumber, immOperand_s32_of_trail h]
    exact ⟨rfl, toInt_append_four b0 b1 b2 b3⟩
  · exact ⟨BitVec.le_toInt _, Int.le_of_lt_add_one BitVec.toInt_lt, BitVec.le_toInt _,
      Int.le_of_lt_add_one BitVec.toInt_lt⟩
  · exact ⟨_, _, fun p h => immNumber_of_trail (sz := .s16) hlo (Int.lt_add_one_of_le hhi) h⟩
  · exact ⟨_, _, _, _, fun p h => immNumber_of_trail (sz := .s32) hlo (Int.lt_add_one_of_le hhi) h⟩

/-! ### Relative targets (R146 to R148, log 20) -/

theorem relTarget_inRange {s : State} {len w : Nat} {rel : BitVec w}
    (h : 0 ≤ relSum s len rel ∧ relSum s len rel < 2 ^ 16) :
    relTarget s len rel = .ok (BitVec.ofInt 32 (relSum s len rel)) :=
  if_pos h

/-- What a relative target can be: the exact sum, where no truncation changes it. -/
theorem relTarget_eq_ok {s : State} {len w : Nat} {rel : BitVec w} {t : Word32}
    (h : relTarget s len rel = .ok t) : (t.toNat : Int) = relSum s len rel := by
  unfold relTarget at h
  split at h
  · next hrange =>
    cases h
    rw [BitVec.toNat_ofInt]
    omega
  · cases h

/-- Settles O28: where a target is given it is the exact sum, and the fields are those of immediates. -/
theorem relativeTargetFromEndOfInstruction : Obligations.RelativeTargetFromEndOfInstruction := by
  unfold Obligations.RelativeTargetFromEndOfInstruction
  refine ⟨fun s len rel => ?_, fun s len w rel t h => relTarget_eq_ok h,
    fun s len w rel hlo hhi => ⟨_, relTarget_inRange ⟨hlo, hhi⟩⟩,
    fun s len p b0 b1 b2 b3 => ⟨?_, ?_, ?_⟩⟩
  · have hlo := BitVec.le_toInt rel
    have hhi := BitVec.toInt_lt (x := rel)
    unfold relSum
    omega
  · intro h
    rw [rel8Operand, ParsedForm.trailValue, h, ofLE_one]
  · intro h
    exact congrArg (relTarget s len) (immOperand_s16_of_trail h)
  · intro h
    exact congrArg (relTarget s len) (immOperand_s32_of_trail h)

/-! ### Descriptor table registers (R51, R75, R157) -/

theorem readLimitBase_of_holds {s : State} {e : EffAddr} {limit : Word16} {base : Word32}
    (hfit : offsetFits e.aw e.off 6 = true)
    (h : s.mem.holds (s.linear e.seg e.off)
      (pairBytes (Config.multipartLayout .limitBase) (nl := 2) (nr := 4) limit base)) :
    readLimitBase s e = .ok ⟨limit, base⟩ := by
  have hread := readPairWith_eq_ok_iff.mpr ⟨hfit, h⟩
  simp [readLimitBase, hread]

/-- Settles O30: in either layout memory holds the bytes that are read. -/
theorem tableRegistersLoadLimitAndBase : Obligations.TableRegistersLoadLimitAndBase := by
  unfold Obligations.TableRegistersLoadLimitAndBase
  intro s e limit base hfit hheld
  obtain ⟨hleft, hright⟩ := hheld
  have hread : readLimitBase s e = .ok ⟨limit, base⟩ := by
    apply readLimitBase_of_holds hfit
    cases horder : Config.multipartLayout .limitBase with
    | leftFirst => exact hleft horder
    | rightFirst => exact hright horder
  rw [loadGdtr, loadIdtr, hread]
  exact ⟨rfl, rfl⟩

/-! ### Instructions that are refused (R109, R162, D1, D20) -/

/-- An instruction with prefixes runs by them and its opcode byte alone. -/
theorem exec_eq_runPrefixed {i : Instr} (h : i.prefixes ≠ []) (s : State) :
    exec i s = runPrefixed i.prefixes i.opcodeByte s := by
  cases i with
  | cmc => exact absurd rfl h
  | _ => rfl

theorem isInstructionPrefix_iff {p : Prefix} :
    isInstructionPrefix p = true ↔ p = .rep ∨ p = .repne ∨ p = .lock := by
  cases p <;> simp [isInstructionPrefix, Prefix.group]

theorem runPrefixed_instructionPrefix {ps : List Prefix} {p : Prefix}
    (h : ps.find? isInstructionPrefix = some p) (op : Byte) (s : State) :
    runPrefixed ps op s = .refused (.instructionPrefix p) := by
  simp [runPrefixed, h]

/-- Settles O48: the refusal names the first of F0, F2 and F3 that the instruction carries. -/
theorem instructionPrefixesAreRefused : Obligations.InstructionPrefixesAreRefused := by
  unfold Obligations.InstructionPrefixesAreRefused
  refine ⟨fun more op s => ⟨rfl, rfl, rfl⟩, fun i s hcarries => ?_⟩
  obtain ⟨q, hq, hmem⟩ : ∃ q, isInstructionPrefix q = true ∧ q ∈ i.prefixes := by
    rcases hcarries with hmem | hmem | hmem
    all_goals exact ⟨_, rfl, hmem⟩
  obtain ⟨p, hfind⟩ := Option.isSome_iff_exists.mp (List.find?_isSome.mpr ⟨q, hmem, hq⟩)
  refine ⟨p, isInstructionPrefix_iff.mp (List.find?_some hfind),
    List.mem_of_find?_eq_some hfind, ?_⟩
  rw [exec_eq_runPrefixed (List.ne_nil_of_mem hmem)]
  exact runPrefixed_instructionPrefix hfind _ s

theorem runPrefixed_notShown {ps : List Prefix} {op : Byte}
    (h : ∀ p ∈ ps, isInstructionPrefix p = false) (hop : op ≠ 0xF5) (s : State) :
    runPrefixed ps op s = .refused (.opcodeNotShown op) := by
  have hfind : ps.find? isInstructionPrefix = none := by simpa using h
  simp only [runPrefixed, hfind, if_neg hop]

/-- Settles O49: an instruction whose opcode is not F5 has prefixes, none of them F0, F2 or F3. -/
theorem prefixedUnshownOpcodesAreRefused : Obligations.PrefixedUnshownOpcodesAreRefused := by
  unfold Obligations.PrefixedUnshownOpcodesAreRefused
  intro i s hop hnone
  have hps : i.prefixes ≠ [] := by
    cases i with
    | cmc => exact absurd rfl hop
    | _ => exact List.cons_ne_nil _ _
  rw [exec_eq_runPrefixed hps]
  refine runPrefixed_notShown (fun p hp => Bool.eq_false_iff.mpr fun hinstr => ?_) hop s
  obtain ⟨hrep, hrepne, hlock⟩ := hnone p hp
  rcases isInstructionPrefix_iff.mp hinstr with rfl | rfl | rfl
  · exact hrep rfl
  · exact hrepne rfl
  · exact hlock rfl

/-- Settles O54: the window that step decodes begins with the byte. -/
theorem stepRefusesUnshownOpcodes : Obligations.StepRefusesUnshownOpcodes := by
  unfold Obligations.StepRefusesUnshownOpcodes
  intro s b hF5 hb hcode
  obtain ⟨rest, hwindow⟩ := fetchWindow_of_codeAt (n := maxInstrLen) hcode (Nat.succ_pos _)
  have hdecode : decode s.fetched.1 = .error (.opcodeNotShown b) := by
    rw [State.fetched, hwindow]
    exact decode_notShown hb hF5 rest
  simp [step, hdecode, decodeStop]

/-! ### The launch conditions (R101, R45, R84, P4, D12) -/

/-- The conditions speak of memory, the mode, the D-bit and pc; the first three a step leaves alone. -/
theorem State.Inv.setCf_setPc {s : State} (h : s.Inv) (b : Bool) {v : Word32}
    (hv : v.toNat < 2 ^ s.codeSize.bits) : ((s.setCf b).setPc v).Inv where
  memWf := h.memWf
  dBitConsistent := h.dBitConsistent
  pcInRange := hv

theorem step_eq_setCf_setPc {s t : State} (h : step s = .next t) :
    t = (s.setCf (!s.cf)).setPc t.pc := by
  obtain ⟨i, rest, -, hexec⟩ := step_eq_next h
  obtain ⟨-, rfl⟩ := exec_eq_next hexec
  rfl

/-- Settles O59: the step writes the carry flag and a pc in range. -/
theorem stepKeepsTheLaunchConditions : Obligations.StepKeepsTheLaunchConditions := by
  unfold Obligations.StepKeepsTheLaunchConditions
  intro s t hinv h
  obtain ⟨-, -, hrange⟩ := stepMovesPcForwardInRange s t h
  rw [step_eq_setCf_setPc h]
  exact hinv.setCf_setPc _ hrange

theorem State.sameButCfPc_refl (s : State) : s.sameButCfPc s := rfl

theorem State.sameButCfPc_of_step {s t : State} (h : step s = .next t) : s.sameButCfPc t := by
  rw [step_eq_setCf_setPc h]
  rfl

theorem State.sameButCfPc_trans {s t u : State} (hst : s.sameButCfPc t) (htu : t.sameButCfPc u) :
    s.sameButCfPc u := by
  unfold State.sameButCfPc at *
  calc (u.setCf s.cf).setPc s.pc
      = (((u.setCf t.cf).setPc t.pc).setCf s.cf).setPc s.pc := rfl
    _ = (t.setCf s.cf).setPc s.pc := by rw [htu]
    _ = s := hst

/-- Settles O60, by induction on the run. -/
theorem runsKeepLaunchFieldsAndConditions : Obligations.RunsKeepLaunchFieldsAndConditions := by
  unfold Obligations.RunsKeepLaunchFieldsAndConditions
  intro s t hinv hreach
  induction hreach with
  | refl => exact ⟨hinv, s.sameButCfPc_refl⟩
  | tail _ hstep ih =>
    obtain ⟨hinv', hsame⟩ := ih
    exact ⟨stepKeepsTheLaunchConditions _ _ hinv' hstep,
      State.sameButCfPc_trans hsame (State.sameButCfPc_of_step hstep)⟩

end Sys2Proof.Machine
end

section
/-! PROOFS. The statements of 40_cmc: what CMC does with and without prefixes, and what a step changes. -/

namespace Sys2Proof.Machine

/-! ### Complementing the carry flag (R45, R171, D4) -/

theorem complementCarry_inRange {len : Nat} {s : State}
    (h : s.pc.toNat + len < 2 ^ s.codeSize.bits) :
    complementCarry len s = .next ((s.setCf (!s.cf)).setPc (s.pc + BitVec.ofNat 32 len)) :=
  advance_inRange (s := s.setCf (!s.cf)) h

theorem complementCarry_outOfRange {len : Nat} {s : State}
    (h : 2 ^ s.codeSize.bits ≤ s.pc.toNat + len) :
    complementCarry len s = .refused .pcBeyondRange :=
  advance_outOfRange (s := s.setCf (!s.cf)) h

/-! ### CMC without prefixes (R171, R172) -/

/-- Settles O45: CMC complements the carry flag over its one byte. -/
theorem cmcComplementsCarry : Obligations.CmcComplementsCarry :=
  fun _ => ⟨complementCarry_inRange, complementCarry_outOfRange⟩

/-- Settles O50: both next states are those of O45, whose carry and pc come from carry and pc alone. -/
theorem cmcIgnoresModeAndSizes : Obligations.CmcIgnoresModeAndSizes := by
  unfold Obligations.CmcIgnoresModeAndSizes
  intro s t hcf hpc hs ht
  obtain ⟨hnext_s, -⟩ := cmcComplementsCarry s
  obtain ⟨hnext_t, -⟩ := cmcComplementsCarry t
  exact ⟨_, _, hnext_s hs, hnext_t ht, congrArg not hcf, congrArg (· + 1) hpc⟩

/-! ### CMC with prefixes (R173, D2, D4) -/

theorem isInstructionPrefix_eq_false {p : Prefix} (h : p ≠ .rep ∧ p ≠ .repne ∧ p ≠ .lock) :
    isInstructionPrefix p = false := by
  rw [Bool.eq_false_iff, Ne, isInstructionPrefix_iff]
  simpa only [not_or] using h

theorem runPrefixed_cmc {ps : List Prefix} (h : ∀ p ∈ ps, p ≠ .rep ∧ p ≠ .repne ∧ p ≠ .lock)
    (s : State) :
    runPrefixed ps 0xF5 s =
      if s.admitPrefixedCmc then complementCarry (ps.length + 1) s else .refused .prefixedCmc := by
  have hfind : ps.find? isInstructionPrefix = none := by
    simpa using fun p hp => isInstructionPrefix_eq_false (h p hp)
  simp only [runPrefixed, hfind, if_pos]

/-- Settles O46: each of the eight runs by its own prefix and the further ones, none of them F0, F2 or
F3. -/
theorem prefixedCmcRunsWhenAdmitted : Obligations.PrefixedCmcRunsWhenAdmitted := by
  unfold Obligations.PrefixedCmcRunsWhenAdmitted
  intro s more hadmit hmore hrange t
  have hrun : ∀ p : Prefix, (p ≠ .rep ∧ p ≠ .repne ∧ p ≠ .lock) →
      runPrefixed (p :: more) 0xF5 s = .next t := fun p hp => by
    rw [runPrefixed_cmc (List.forall_mem_cons.mpr ⟨hp, hmore⟩), if_pos hadmit]
    exact complementCarry_inRange hrange
  exact ⟨hrun (.segment .cs) (by decide), hrun (.segment .ss) (by decide),
    hrun (.segment .ds) (by decide), hrun (.segment .es) (by decide),
    hrun (.segment .fs) (by decide), hrun (.segment .gs) (by decide),
    hrun .operandSize (by decide), hrun .addressSize (by decide)⟩

/-- Settles O47: such an instruction is refused by name, or complements the carry flag over its length. -/
theorem prefixedCmcStops : Obligations.PrefixedCmcStops := by
  unfold Obligations.PrefixedCmcStops
  intro s i hop hps hnone
  rw [exec_eq_runPrefixed hps, hop, runPrefixed_cmc hnone]
  refine ⟨fun hadmit => ?_, fun hadmit hrange => ?_⟩
  · rw [hadmit]
    rfl
  · rw [if_pos hadmit]
    exact complementCarry_outOfRange hrange

/-! ### What a step changes (R6, R57, R171, D12) -/

/-- Settles O56: the step writes the carry flag and pc, and every other field is read as before. -/
theorem stepChangesOnlyCarryAndPc : Obligations.StepChangesOnlyCarryAndPc := by
  unfold Obligations.StepChangesOnlyCarryAndPc
  intro s t h
  rw [step_eq_setCf_setPc h]
  simp

end Sys2Proof.Machine
end

section
/-! PROOFS. The statements of 60_exceptions: what raising an exception of Table 17-6 answers, and that no
step raises one. -/

namespace Sys2Proof.Machine

/-! ### Raising an exception (R181, R187, D9) -/

theorem raise_eq (x : ExceptionName) (code : Option Nat) :
    raise x code = .fault (.exception x x.number code) := rfl

/-- Settles O42: each exception's entry of Table 17-6 is its `ExceptionName.number`. -/
theorem raiseRecordsTable17_6 : Obligations.RaiseRecordsTable17_6 :=
  fun code => ⟨raise_eq .ud code, raise_eq .nm code, raise_eq .df code, raise_eq .ts code,
    raise_eq .np code, raise_eq .ss code, raise_eq .gp code, raise_eq .pf code, raise_eq .mf code⟩

/-! ### Execution has no fault (R109, R171, R173) -/

theorem complementCarry_ne_fault (len : Nat) (s : State) (f : Fault) :
    complementCarry len s ≠ .fault f := by
  intro h
  rcases Nat.lt_or_ge (s.pc.toNat + len) (2 ^ s.codeSize.bits) with hin | hout
  · rw [complementCarry_inRange hin] at h
    cases h
  · rw [complementCarry_outOfRange hout] at h
    cases h

theorem runPrefixed_ne_fault (ps : List Prefix) (op : Byte) (s : State) (f : Fault) :
    runPrefixed ps op s ≠ .fault f := by
  unfold runPrefixed
  split
  case h_1 => exact nofun
  case h_2 =>
    split_ifs
    · exact complementCarry_ne_fault _ s f
    · exact nofun
    · exact nofun

theorem exec_ne_fault (i : Instr) (s : State) (f : Fault) : exec i s ≠ .fault f := by
  cases i with
  | cmc => exact complementCarry_ne_fault 1 s f
  | _ =>
    rw [exec_eq_runPrefixed]
    · exact runPrefixed_ne_fault _ _ s f
    · exact List.cons_ne_nil _ _

/-! ### A fetch faults at a byte not held only (R84, D13) -/

theorem fetchByte_eq_fault {s : State} {off : Nat} {f : Fault}
    (h : fetchByte s off = .error (.fault f)) :
    ∃ a : Word32, s.mem.read a.toNat = none ∧ f = .notHeld a := by
  unfold fetchByte at h
  split at h
  · split at h
    · cases h
    · next hnone =>
      cases h
      exact ⟨_, hnone, rfl⟩
  · cases h

/-- By induction on the window: its fault is that of one of its bytes. -/
theorem fetchWindow_eq_fault {s : State} {off n : Nat} {f : Fault}
    (h : (fetchWindow s off n).2 = some (.fault f)) :
    ∃ a : Word32, s.mem.read a.toNat = none ∧ f = .notHeld a := by
  induction n generalizing off with
  | zero => cases h
  | succ n ih =>
    unfold fetchWindow at h
    split at h
    · next hbyte =>
      cases h
      exact fetchByte_eq_fault hbyte
    · exact ih h

theorem decodeStop_eq_fault {e : DecodeError} {o : Option Stop} {f : Fault}
    (h : decodeStop e o = .fault f) : o = some (.fault f) := by
  cases e with
  | opcodeNotShown op => cases h
  | repeatedPrefixGroup g => cases h
  | truncated =>
    cases o with
    | none => cases h
    | some stop =>
      cases stop with
      | fault g =>
        cases h
        rfl
      | refusal r => cases h

/-! ### The faults of a step (R84, R184, D13) -/

/-- What a step's fault can be: the fetch of a byte that memory does not hold. -/
theorem step_eq_fault {s : State} {f : Fault} (h : step s = .fault f) :
    ∃ a : Word32, s.mem.read a.toNat = none ∧ f = .notHeld a := by
  unfold step at h
  split at h
  · exact absurd h (exec_ne_fault _ s f)
  · exact fetchWindow_eq_fault (decodeStop_eq_fault h)

/-- Settles O55: the one fault of a step, a byte not held, is no exception. -/
theorem noStepRaisesAnException : Obligations.NoStepRaisesAnException := by
  unfold Obligations.NoStepRaisesAnException
  intro s x n c h
  obtain ⟨a, -, hfault⟩ := step_eq_fault h
  cases hfault

end Sys2Proof.Machine
end

section
/-! PROOFS. The statements of 70_reset_and_hazards: the recorded clock counts. -/

namespace Sys2Proof.Machine

/-! ### CMC's entry of the Clocks column (R208, R210) -/

/-- An entry without `pm=` gives one count for every mode. -/
theorem ClockCount.clocks_of_pm_none {c : ClockCount} (h : c.pm = none) (m : Mode)
    (memoryOperand : Bool) :
    c.clocks m memoryOperand = if memoryOperand then c.memory else c.register := by
  cases m <;> simp [ClockCount.clocks, h]

theorem clocks_clocksCmc (m : Mode) (memoryOperand : Bool) :
    clocksCmc.clocks m memoryOperand = 2 := by
  rw [ClockCount.clocks_of_pm_none rfl]
  exact ite_self 2

/-! ### Table 17-5 by the new task's column (R209, C13, logs 40 and 43) -/

/-- The column of a 386 TSS with VM = 0; the row of a 286 TSS is one for either VM. -/
theorem taskSwitchClocks_to386 (old : TssType) (oldVm : Bool) :
    taskSwitchClocks old oldVm .tss386 false =
      some (if old = .tss286 then 307 else if oldVm then 314 else 309) := by
  cases old with
  | tss386 => cases oldVm <;> rfl
  | tss286 => rfl

/-- The column of a 286 TSS: only a 386 task that leaves V86 mode takes fewer clocks. -/
theorem taskSwitchClocks_to286 (old : TssType) (oldVm newVm : Bool) :
    taskSwitchClocks old oldVm .tss286 newVm =
      some (if old = .tss386 ∧ oldVm = true then 231 else 282) := by
  cases old with
  | tss386 => cases oldVm <;> rfl
  | tss286 => rfl

/-- The table has no column for a new task with a 386 TSS in V86 mode. -/
theorem taskSwitchClocks_toV86 (old : TssType) (oldVm : Bool) :
    taskSwitchClocks old oldVm .tss386 true = none := by
  cases old with
  | tss386 => cases oldVm <;> rfl
  | tss286 => rfl

/-- Settles O44: each entry is read in the column of its new task, and CMC's entry has no `pm=`. -/
theorem clockTables : Obligations.ClockTables := by
  unfold Obligations.ClockTables
  exact ⟨taskSwitchClocks_to386 .tss386 false, taskSwitchClocks_to386 .tss386 true,
    fun newVm => ⟨taskSwitchClocks_to286 .tss386 false newVm,
      taskSwitchClocks_to286 .tss386 true newVm⟩,
    fun oldVm newVm => ⟨taskSwitchClocks_to386 .tss286 oldVm,
      by simp [taskSwitchClocks_to286]⟩,
    taskSwitchClocks_toV86, clocks_clocksCmc⟩

end Sys2Proof.Machine
end
